-- ==== Sys2Proof/Word.lean ====
section
/-! DEFINITION. The word types of the block: a byte, the 16-bit value port, the 40-bit command word
(`00_scope.md` R4, R5; `30_encoding.md` R52). -/

namespace Sys2Proof

/-- A byte: 8 bits, value 0 to 255 (R5). -/
abbrev Byte := BitVec 8

/-- The `wdata` and `rdata` port: 16 bits (R4). -/
abbrev Half := BitVec 16

/-- A command word `cmd[39:0]` (R52). -/
abbrev CmdWord := BitVec 40

end Sys2Proof
end

