-- ==== Sys2Proof/Config.lean ====
section
/-! DEFINITION. What is fixed per instance and what is free (`00_scope.md` R4, `10_state.md` R18, R22). -/

namespace Sys2Proof

/-- `MARKER`, hardwired (R4, R18). -/
def Config.marker : Byte := 0xAA

/-- The largest payload size, `N ≤ 253` (R4). -/
def Config.maxPayload : Nat := 253

/-- `BITSIZE_MAX` (R4). -/
def Config.bitsizeMax : Nat := 16

/-- DESIGN CHOICE (log entry 1): the payload size of the one instance that `State.reset` builds. `N` is an open
parameter of the spec (R4, D15); the step reads it off the state's shape, so nothing else depends on this number. -/
def Config.payloadSize : Nat := 4

/-- The three byte stores of the block (R10). -/
inductive Store
  | buf
  | rx
  | tx
deriving DecidableEq, Repr

/-- What the three byte stores hold. -/
structure Contents where
  buf : List Byte
  rx : List Byte
  tx : List Byte
deriving DecidableEq, Repr

/-- What stands before an instance is built: no contents. DESIGN CHOICE (log entry 2). -/
def Contents.none : Contents := { buf := [], rx := [], tx := [] }

/-- FREE VALUE (log entry 2): the byte that reset number `draw` leaves at index `i` of a store, where the stores held
`before`. R22 and R150 leave it unspecified, "the same at every read until written", and a model "must not assume that the
content before the reset survives or that it does not": as the value may depend on `before`, neither can be proved. Nothing
in Lean can evaluate it. DESIGN CHOICE (log entry 2): it depends on these four arguments and on nothing else of the state. -/
opaque Config.resetByte : (draw : Nat) → (before : Contents) → Store → (i : Nat) → Byte

end Sys2Proof
end

