-- ==== Sys2Proof/Syntax.lean ====
section
/-! DEFINITION. The operations of the block, one constructor per row of `spec/opcode_table.json`
(`30_encoding.md` R53, R54). -/

namespace Sys2Proof

/-- The message register selector `m`: `msg[0]` is `RX`, `msg[1]` is `TX` (`10_state.md` R11). -/
inductive MsgSel
  | rx
  | tx
deriving DecidableEq, Repr

/-- The four operations. `offset` is a plain bit number and `bitsize` a plain count (`30_encoding.md` R56), so both
are naturals; `WellFormed` keeps them within their fields. -/
inductive Instr
  /-- `GET m, offset, bitsize` (R75). -/
  | get (m : MsgSel) (offset bitsize : Nat)
  /-- `SET m, offset, bitsize, value` (R76). -/
  | set (m : MsgSel) (offset bitsize : Nat) (value : Half)
  /-- `ENCODE m` (R93). -/
  | encode (m : MsgSel)
  /-- `DECODE byte` (R95). -/
  | decode (byte : Byte)
deriving DecidableEq, Repr

end Sys2Proof
end

