-- ==== Sys2Proof/WellFormed.lean ====
section
/-! DEFINITION. Which terms of `Instr` a command word can carry (`30_encoding.md` R52, R59). Legality of
`(offset, bitsize)` for an instance is another check, `Legal` of Machine/Operands.lean (R72). -/

namespace Sys2Proof

/-- The operands fit their fields: `offset` 0 to 2047 (11 bits), `bitsize` 0 to 31 (5 bits). The other operands fit
by their types. -/
abbrev Instr.WellFormed : Instr → Prop
  | .get _ offset bitsize => offset < 2048 ∧ bitsize < 32
  | .set _ offset bitsize _ => offset < 2048 ∧ bitsize < 32
  | .encode _ => True
  | .decode _ => True

end Sys2Proof
end

