-- ==== Sys2Proof/Decode.lean ====
section
/-! DEFINITION. The command word: its fields, the decoder (total, rejecting by name), the encoder, and the opcode
table's match and mask pairs (`30_encoding.md` R52, R53, R54, R57). -/

namespace Sys2Proof

/-- Why a word is no operation. The block answers `IllegalCommand` to all three alike (R57). -/
inductive Reject
  /-- `op` is 0 or 5 to 15. -/
  | reservedOp
  /-- `rsv` is not 0. -/
  | reservedBits
  /-- a field the operation does not use is not 0. -/
  | unusedField
deriving DecidableEq, Repr

/-- The field of `len` bits of a word whose least significant bit is bit `lo` (R5 `v[hi:lo]`). -/
def cmdField (w : CmdWord) (lo len : Nat) : Nat := w.toNat / 2 ^ lo % 2 ^ len

/-- `op`, bits 39:36 (R52). -/
def opField (w : CmdWord) : Nat := cmdField w 36 4

/-- `rsv`, bits 35:33 (R52). -/
def rsvField (w : CmdWord) : Nat := cmdField w 33 3

/-- `m`, bit 32 (R52). -/
def mField (w : CmdWord) : Nat := cmdField w 32 1

/-- `bitsize`, bits 31:27 (R52). -/
def bitsizeField (w : CmdWord) : Nat := cmdField w 27 5

/-- `offset`, bits 26:16 (R52). -/
def offsetField (w : CmdWord) : Nat := cmdField w 16 11

/-- `wdata`, bits 15:0 (R52). -/
def wdataField (w : CmdWord) : Nat := cmdField w 0 16

/-- The register a value of the `m` field selects (R52): 0 is `msg[0]`, 1 is `msg[1]`. -/
def MsgSel.ofBit (b : Nat) : MsgSel := if b = 0 then .rx else .tx

/-- The value of the `m` field that selects a register (R52). -/
def MsgSel.bit : MsgSel → Nat
  | .rx => 0
  | .tx => 1

/-- The command decoder: every word is an operation or is rejected by name. Unused fields must be 0 (R54). -/
def decode (w : CmdWord) : Except Reject Instr :=
  if opField w = 0 ∨ 5 ≤ opField w then .error .reservedOp
  else if rsvField w ≠ 0 then .error .reservedBits
  else if opField w = 1 then
    if wdataField w = 0 then .ok (.get (.ofBit (mField w)) (offsetField w) (bitsizeField w))
    else .error .unusedField
  else if opField w = 2 then
    .ok (.set (.ofBit (mField w)) (offsetField w) (bitsizeField w) (BitVec.ofNat 16 (wdataField w)))
  else if opField w = 3 then
    if bitsizeField w = 0 ∧ offsetField w = 0 ∧ wdataField w = 0 then .ok (.encode (.ofBit (mField w)))
    else .error .unusedField
  else
    if mField w = 0 ∧ bitsizeField w = 0 ∧ offsetField w = 0 ∧ wdataField w < 256 then
      .ok (.decode (BitVec.ofNat 8 (wdataField w)))
    else .error .unusedField

/-- `cmd = op·2^36 + m·2^32 + bitsize·2^27 + offset·2^16 + wdata` (R52). -/
def packCmd (op m bitsize offset wdata : Nat) : CmdWord :=
  BitVec.ofNat 40 (op * 2 ^ 36 + m * 2 ^ 32 + bitsize * 2 ^ 27 + offset * 2 ^ 16 + wdata)

/-- The one word of a well-formed operation (R53, R54). -/
def encode : Instr → CmdWord
  | .get m offset bitsize => packCmd 1 m.bit bitsize offset 0
  | .set m offset bitsize value => packCmd 2 m.bit bitsize offset value.toNat
  | .encode m => packCmd 3 m.bit 0 0 0
  | .decode byte => packCmd 4 0 0 0 byte.toNat

/-- A row of the opcode table of R54: a word `w` is the operation when `w &&& mask = pattern`. -/
structure OpRow where
  pattern : CmdWord
  mask : CmdWord
deriving DecidableEq, Repr

/-- Whether a word is of a row (R54). -/
abbrev OpRow.Matches (r : OpRow) (w : CmdWord) : Prop := w &&& r.mask = r.pattern

/-- Row `GET` of R54. -/
def rowGet : OpRow := { pattern := 0x1000000000, mask := 0xFE0000FFFF }

/-- Row `SET` of R54. -/
def rowSet : OpRow := { pattern := 0x2000000000, mask := 0xFE00000000 }

/-- Row `ENCODE` of R54. -/
def rowEncode : OpRow := { pattern := 0x3000000000, mask := 0xFEFFFFFFFF }

/-- Row `DECODE` of R54. -/
def rowDecode : OpRow := { pattern := 0x4000000000, mask := 0xFFFFFFFF00 }

/-- The row an operation is encoded by. -/
def Instr.row : Instr → OpRow
  | .get _ _ _ => rowGet
  | .set _ _ _ _ => rowSet
  | .encode _ => rowEncode
  | .decode _ => rowDecode

/-- The word of a table row given as a number of `nbits` bits, bits above them 0. -/
def tableWord (nbits w : Nat) : CmdWord := BitVec.ofNat 40 (w % 2 ^ nbits)

/-- What the decoder reads from the table's word of `nbits` bits; a word longer than a command (R58) is none. -/
def decodeTableWord (nbits w : Nat) : Option Instr :=
  if nbits ≤ 40 then (decode (tableWord nbits w)).toOption else none

end Sys2Proof
end

