-- ==== Sys2Proof/Machine/State.lean ====
section
/-! DEFINITION. The state of one instance of the block (`10_state.md` R10 to R14), the response record
(`30_encoding.md` R55), the host's side of the interface as plain data, and the state after reset (R22, R150). -/

namespace Sys2Proof.Machine

/-- The parser's state (R12). -/
inductive PState
  | idle
  | accumulating
deriving DecidableEq, Repr

/-- The `fault` field of a response (R55, R130). Code 3 is never produced, so it has no constructor (U10). -/
inductive FaultCode
  | none
  | preconditionError
  | illegalCommand
deriving DecidableEq, Repr

/-- The `status` field of a response (R55). -/
inductive Status
  | complete
  | notComplete
  | error
deriving DecidableEq, Repr

/-- The `err_cause` field of a response (R55, R133). -/
inductive ErrCause
  | none
  | framing
  | checksum
deriving DecidableEq, Repr

/-- The response of one operation: five fields (R55). -/
structure Response where
  fault : FaultCode
  status : Status
  errCause : ErrCause
  rdata : Half
  frame : List Byte
deriving DecidableEq, Repr

/-- What the host can do to the block between two operations: present a command word (R52), or apply the reset event,
which is no command word (R150). -/
inductive HostEvent
  | command (w : CmdWord)
  | reset
deriving DecidableEq, Repr

/-- One instance. The first five fields are ALL the state the spec gives the block (R10); the payload size `N` is no
field (R23) but the length of the message registers. The last three are the model's own (log entries 2 and 3). -/
structure State where
  /-- `pstate` (R12). -/
  pstate : PState
  /-- `cursor`, held in 8 bits (R13). -/
  cursor : BitVec 8
  /-- `buf[0]` to `buf[N+1]` (R14). -/
  buf : List Byte
  /-- `msg[0]`, the RX message (R11). -/
  rx : List Byte
  /-- `msg[1]`, the TX message (R11). -/
  tx : List Byte
  /-- MODEL: what the host does next, in order. -/
  pending : List HostEvent
  /-- MODEL: the responses given so far, oldest first; no operation reads them (R17). -/
  responses : List Response
  /-- MODEL: the number of the next draw of unspecified reset contents. -/
  draws : Nat
deriving DecidableEq, Repr

/-- Why a step stops. No state that satisfies the invariants of R15 has such a step. -/
inductive Fault
  /-- Raised by `DECODE` in `Accumulating` when `cursor` is no index of `buf` (indices 0 to N+1, R20). Safe: the model
  stops where the spec has no row (R94), and no run reaches it. Log entry 7. -/
  | bufferIndexOutOfRange
deriving DecidableEq, Repr

/-- Why a step is refused. -/
inductive Refusal
  /-- Raised by `exec` for an operation without a meaning; safe. No operation is left without one. -/
  | notModelled (mnemonic : String)
  /-- Raised by `step` in a state that is no instance of the block: `N` outside 1 to 253, or stores of other lengths.
  Safe: such an instance does not exist and the spec gives it no behaviour (R4, U8). Log entry 6. -/
  | noSuchInstance
deriving DecidableEq, Repr

/-- What the byte stores of a state hold. -/
def State.contents (s : State) : Contents := { buf := s.buf, rx := s.rx, tx := s.tx }

/-- Unspecified contents of `n` bytes of a store, as reset number `draw` leaves them where the stores held `before` (R22,
R150). -/
def unspecified (draw : Nat) (before : Contents) (r : Store) (n : Nat) : List Byte :=
  (List.range n).map (Config.resetByte draw before r)

/-- An instance of payload size `n` right after it is built: `Idle`, cursor 0, the stores unspecified (R22). -/
def State.fresh (n draw : Nat) : State where
  pstate := .idle
  cursor := 0
  buf := unspecified draw .none .buf (n + 2)
  rx := unspecified draw .none .rx n
  tx := unspecified draw .none .tx n
  pending := []
  responses := []
  draws := draw + 1

/-- The machine right after reset: the instance of payload size `Config.payloadSize` (log entry 1). -/
def State.reset : State := State.fresh Config.payloadSize 0

end Sys2Proof.Machine
end

