-- ==== Sys2Proof/Machine/Flags.lean ====
section
/-! DEFINITION. The results of an operation. The block keeps no flag; what a processor's flags would say is in the
response (`10_state.md` R17, `30_encoding.md` R55, `60_exceptions.md` R130, R133). -/

namespace Sys2Proof.Machine

/-- A successful `SET` (R55). -/
def Response.done : Response :=
  { fault := .none, status := .complete, errCause := .none, rdata := 0, frame := [] }

/-- A successful `GET` of value `v`, zero-extended to 16 bits (R55, R75). -/
def Response.value (v : Nat) : Response := { Response.done with rdata := BitVec.ofNat 16 v }

/-- A successful `ENCODE` (R55, R93). -/
def Response.emitted (f : List Byte) : Response := { Response.done with frame := f }

/-- `DECODE` that completes a valid frame (R99); the message is in `msg[0]`, not in the response (R55). -/
def Response.frameComplete : Response := Response.done

/-- `DECODE` inside a frame (R96, R98). -/
def Response.notComplete : Response := { Response.done with status := .notComplete }

/-- `DECODE` that reports an error with its cause (R97, R100, R133). -/
def Response.error (c : ErrCause) : Response := { Response.done with status := .error, errCause := c }

/-- Any faulting command: status `Error`, no cause, no data, no frame (R55, R134, R135). -/
def Response.faulted (f : FaultCode) : Response := { Response.done with fault := f, status := .error }

/-- The 2-bit code of the `fault` field (R55). -/
def FaultCode.code : FaultCode → BitVec 2
  | .none => 0
  | .preconditionError => 1
  | .illegalCommand => 2

/-- The 2-bit code of the `status` field (R55). -/
def Status.code : Status → BitVec 2
  | .complete => 0
  | .notComplete => 1
  | .error => 2

/-- The 2-bit code of the `err_cause` field (R55). -/
def ErrCause.code : ErrCause → BitVec 2
  | .none => 0
  | .framing => 1
  | .checksum => 2

/-- The 1-bit code of `pstate`, visible in no output (R12). -/
def PState.code : PState → BitVec 1
  | .idle => 0
  | .accumulating => 1

/-- `err_cause` of a `DECODE` as a function of the parser state before it and of the status (R133). -/
def causeOf (p : PState) (st : Status) : ErrCause :=
  match st, p with
  | .error, .idle => .framing
  | .error, .accumulating => .checksum
  | .complete, _ => .none
  | .notComplete, _ => .none

end Sys2Proof.Machine
end

