-- ==== Sys2Proof/Machine/Operands.lean ====
section
/-! DEFINITION. Operand forms of the bitfield unit and the two functions on a message value: the legality check
(`40_bitfield.md` R72), the three cases (R71, `30_encoding.md` R56), `bf_get` (R73), `bf_set` (R74); and `LE(M)`
(`00_scope.md` R7). -/

namespace Sys2Proof.Machine

/-- `M[i]`. In an instance and for legal operands the index is always in range (R71); outside it this is 0, which no
run reads (log entry 8). -/
def readByte (M : List Byte) (i : Nat) : Byte := M.getD i 0

/-- `M[i] <- v`; a write outside the store writes nothing. -/
def writeByte (M : List Byte) (i : Nat) (v : Byte) : List Byte := M.set i v

/-- `LE(M)`: the little-endian number of a message, byte 0 least significant (R7). -/
def leNat : List Byte → Nat
  | [] => 0
  | b :: M => b.toNat + 256 * leNat M

/-- Message bit `p`: bit `p % 8` of byte `p / 8` (`20_memory.md` R30). -/
def msgBit (M : List Byte) (p : Nat) : Bool := (readByte M (p / 8)).getLsbD (p % 8)

/-- `legal(N, offset, bitsize)`: P1, P2 and P3 (R72). P4 holds always, the value port being 16 bits wide. -/
abbrev Legal (n offset bitsize : Nat) : Prop :=
  (1 ≤ bitsize ∧ bitsize ≤ Config.bitsizeMax) ∧ (8 < bitsize → offset % 8 = 0) ∧ offset + bitsize ≤ 8 * n

/-- `byte_idx` (R56). -/
def byteIdx (offset : Nat) : Nat := offset / 8

/-- `shift` (R56). -/
def bitShift (offset : Nat) : Nat := offset % 8

/-- The three cases of R71. -/
inductive FieldCase
  | one
  | straddle
  | wide
deriving DecidableEq, Repr

/-- Which case `(offset, bitsize)` falls in (R71). -/
def fieldCase (offset bitsize : Nat) : FieldCase :=
  if bitsize ≤ 8 then
    if bitShift offset + bitsize ≤ 8 then .one else .straddle
  else .wide

/-- `(1 << n) - 1`; a natural, so `n = 16` needs no wider intermediate (R56, R79). -/
def maskOf (n : Nat) : Nat := (1 <<< n) - 1

/-- `~_8 a`, the 8-bit complement `255 - a` (R5). -/
def not8 (a : Nat) : Nat := 255 - a

/-- `lo_bits` of case STRADDLE (R56). -/
def loBits (offset : Nat) : Nat := 8 - bitShift offset

/-- `hi_bits` of case STRADDLE (R56). -/
def hiBits (offset bitsize : Nat) : Nat := bitsize - loBits offset

/-- The low byte's mask in case WIDE, always `0xFF` (R56). -/
def wideLoMask (bitsize : Nat) : Nat := maskOf bitsize &&& 0xFF

/-- The high byte's mask in case WIDE (R56). -/
def wideHiMask (bitsize : Nat) : Nat := maskOf bitsize >>> 8

/-- `bf_get(M, offset, bitsize)` (R73). In case WIDE the high byte is masked (D14, log entry 9). -/
def bfGet (M : List Byte) (offset bitsize : Nat) : Nat :=
  let b0 := (readByte M (byteIdx offset)).toNat
  let b1 := (readByte M (byteIdx offset + 1)).toNat
  match fieldCase offset bitsize with
  | .one => (b0 >>> bitShift offset) &&& maskOf bitsize
  | .straddle =>
    ((b0 >>> bitShift offset) &&& maskOf (loBits offset)) |||
      ((b1 &&& maskOf (hiBits offset bitsize)) <<< loBits offset)
  | .wide => (b0 &&& wideLoMask bitsize) ||| ((b1 &&& wideHiMask bitsize) <<< 8)

/-- One byte's share of a `SET`: clear the mask's bits, then OR the new bits in (R74, `20_memory.md` R36). -/
def mergeByte (old mask new : Nat) : Byte := BitVec.ofNat 8 ((old &&& not8 mask) ||| new)

/-- `bf_set(M, offset, bitsize, value)`: one or two bytes change (R74). -/
def bfSet (M : List Byte) (offset bitsize value : Nat) : List Byte :=
  let i := byteIdx offset
  let sh := bitShift offset
  let b0 := (readByte M i).toNat
  let b1 := (readByte M (i + 1)).toNat
  match fieldCase offset bitsize with
  | .one => writeByte M i (mergeByte b0 (maskOf bitsize <<< sh) ((value &&& maskOf bitsize) <<< sh))
  | .straddle =>
    let loMask := maskOf (loBits offset)
    let hiMask := maskOf (hiBits offset bitsize)
    writeByte (writeByte M i (mergeByte b0 (loMask <<< sh) ((value &&& loMask) <<< sh)))
      (i + 1) (mergeByte b1 hiMask ((value >>> loBits offset) &&& hiMask))
  | .wide =>
    writeByte (writeByte M i (mergeByte b0 (wideLoMask bitsize) (value &&& wideLoMask bitsize)))
      (i + 1) (mergeByte b1 (wideHiMask bitsize) ((value >>> 8) &&& wideHiMask bitsize))

end Sys2Proof.Machine
end

