-- ==== Sys2Proof/Machine/Ops.lean ====
section
/-! DEFINITION. The named operations over the state that the meanings share: the payload size, the message registers,
giving a response, raising a fault, the parser's moves, the reset event. -/

namespace Sys2Proof.Machine

/-- The payload size `N` of the instance: the length of its message registers (R4, R11; log entry 1). -/
def State.N (s : State) : Nat := s.rx.length

/-- `FRAME_SIZE = N + 2` (R4, R90). -/
def State.frameSize (s : State) : Nat := s.N + 2

/-- The state is an instance of the block: `1 ≤ N ≤ 253`, two registers of `N` bytes, a buffer of `N + 2` (R4, R10). -/
abbrev State.IsInstance (s : State) : Prop :=
  1 ≤ s.N ∧ s.N ≤ Config.maxPayload ∧ s.tx.length = s.N ∧ s.buf.length = s.frameSize

/-- `msg[m]` (R11). -/
def State.msg (s : State) : MsgSel → List Byte
  | .rx => s.rx
  | .tx => s.tx

/-- `msg[m] <- M` (R11): the other register and the buffer stay. -/
def State.setMsg (s : State) (m : MsgSel) (M : List Byte) : State :=
  match m with
  | .rx => { s with rx := M }
  | .tx => { s with tx := M }

/-- The operation ends with response `r` (R55, R137); nothing of the block is written. -/
def State.respond (s : State) (r : Response) : State := { s with responses := s.responses ++ [r] }

/-- TAKING A FAULT (R134, R135, R138): nothing is saved, no control goes anywhere, no state of the block is written;
the response carries the fault and the block goes on. There is no return operation (R139). -/
def State.raise (s : State) (f : FaultCode) : State := s.respond (Response.faulted f)

/-- `pstate <- Idle ; cursor <- 0`: the parser's return to `Idle` after every frame outcome (R95, R138, R139). -/
def State.enterIdle (s : State) : State := { s with pstate := .idle, cursor := 0 }

/-- T1's writes (R95, R96): cursor to 0, byte stored at position 0, cursor to 1, `Accumulating`. -/
def State.acceptMarker (s : State) (b : Byte) : State :=
  { s with buf := writeByte s.buf 0 b, cursor := 1, pstate := .accumulating }

/-- `buf[cursor] <- b ; cursor <- cursor + 1` (R95). -/
def State.storeByte (s : State) (b : Byte) : State :=
  { s with buf := writeByte s.buf s.cursor.toNat b, cursor := s.cursor + 1 }

/-- `msg[0][i] <- buf[i+1]` for `i = 0` to `N-1` (R99). -/
def State.deliver (s : State) : State := { s with rx := (s.buf.drop 1).take s.N }

/-- The reset event (R150): `Idle`, cursor 0, all stores unspecified anew; `N` is not changed. It gives no response and
takes nothing from the host's list (log entry 4). The new bytes are free values that may depend on what the stores held, so
survival of a byte is neither assumed nor excluded. DESIGN CHOICE (log entry 2): they depend on `draws` and the old contents
of the three stores, and not on `pstate`, `cursor`, `pending` or `responses`. -/
def State.applyReset (s : State) : State :=
  { s with
    pstate := .idle
    cursor := 0
    buf := unspecified s.draws s.contents .buf s.frameSize
    rx := unspecified s.draws s.contents .rx s.N
    tx := unspecified s.draws s.contents .tx s.N
    draws := s.draws + 1 }

/-- The model's "fault seen" mark of a run (D16): some operation so far answered with a fault. The block keeps no such
bit. -/
def State.faultSeen (s : State) : Bool := s.responses.any (fun r => decide (r.fault ≠ .none))

end Sys2Proof.Machine
end

