-- ==== Sys2Proof/Machine/Bitfield.lean ====
section
/-! DEFINITION. The bitfield extractor/packer: `GET` and `SET` (`40_bitfield.md` R75, R76). -/

namespace Sys2Proof.Machine

/-- `GET m, offset, bitsize` (R75). -/
def execGet (m : MsgSel) (offset bitsize : Nat) (s : State) : Host.Outcome State Fault Refusal :=
  .next (if Legal s.N offset bitsize then s.respond (.value (bfGet (s.msg m) offset bitsize))
    else s.raise .preconditionError)

/-- `SET m, offset, bitsize, value` (R76); on a fault nothing is written, not even the first of two bytes. -/
def execSet (m : MsgSel) (offset bitsize : Nat) (value : Half) (s : State) : Host.Outcome State Fault Refusal :=
  .next (if Legal s.N offset bitsize then
      (s.setMsg m (bfSet (s.msg m) offset bitsize value.toNat)).respond .done
    else s.raise .preconditionError)

end Sys2Proof.Machine
end

