-- ==== Sys2Proof/Machine/Framing.lean ====
section
/-! DEFINITION. The checksum, the frame encoder and the frame parser: `ENCODE` and `DECODE`
(`41_framing.md` R91 to R100, R105). -/

namespace Sys2Proof.Machine

/-- `checksum(b_0, …, b_k)`: the sum over naturals, reduced once modulo 256 (R91). -/
def checksum (bs : List Byte) : Byte := BitVec.ofNat 8 (bs.map BitVec.toNat).sum

/-- `encode(M)`: marker, message bytes verbatim, checksum of both (R92). -/
def encodeFrame (M : List Byte) : List Byte :=
  Config.marker :: (M ++ [checksum (Config.marker :: M)])

/-- `ENCODE m` (R93): the frame of the register as it stands; no state of the block is written. -/
def execEncode (m : MsgSel) (s : State) : Host.Outcome State Fault Refusal :=
  .next (s.respond (.emitted (encodeFrame (s.msg m))))

/-- The frame in `buf` is full: compare and end it (R95, T4 and T5). -/
def closeFrame (s : State) : State :=
  if checksum (s.buf.take (s.frameSize - 1)) = readByte s.buf (s.frameSize - 1) then
    s.deliver.enterIdle.respond .frameComplete
  else
    s.enterIdle.respond (.error .checksum)

/-- `DECODE byte` in `Idle` (R95, T1 and T2). -/
def decodeIdle (b : Byte) (s : State) : State :=
  if b = Config.marker then (s.acceptMarker b).respond .notComplete
  else { s with cursor := 0 }.respond (.error .framing)

/-- `DECODE byte` in `Accumulating`, the byte stored first (R95, T3 to T5). -/
def decodeAccumulating (b : Byte) (s : State) : State :=
  if (s.storeByte b).cursor.toNat < s.frameSize then (s.storeByte b).respond .notComplete
  else closeFrame (s.storeByte b)

/-- `DECODE byte` (R95). A cursor outside the buffer, which R15 rules out, has no row in R94 and faults. -/
def execDecode (b : Byte) (s : State) : Host.Outcome State Fault Refusal :=
  match s.pstate with
  | .idle => .next (decodeIdle b s)
  | .accumulating =>
    if s.cursor.toNat < s.frameSize then .next (decodeAccumulating b s) else .fault .bufferIndexOutOfRange

/-- The 8-bit running sum of R105 after `DECODE b`: `0xAA` at T1, one wrapped addition at T3, and what it was where the
frame ends or no frame runs. -/
def runningSum (s : State) (acc b : Byte) : Byte :=
  match s.pstate with
  | .idle => if b = Config.marker then Config.marker else acc
  | .accumulating => if s.cursor.toNat + 1 < s.frameSize then acc + b else acc

/-- `DECODE byte` of an implementation that compares the running sum with the byte instead of summing the buffer at the
end (R105). -/
def execDecodeRunning (acc b : Byte) (s : State) : Host.Outcome State Fault Refusal :=
  match s.pstate with
  | .idle => .next (decodeIdle b s)
  | .accumulating =>
    if s.cursor.toNat + 1 < s.frameSize then .next ((s.storeByte b).respond .notComplete)
    else if s.cursor.toNat < s.frameSize then
      .next (if acc = b then (s.storeByte b).deliver.enterIdle.respond .frameComplete
        else (s.storeByte b).enterIdle.respond (.error .checksum))
    else .fault .bufferIndexOutOfRange

end Sys2Proof.Machine
end

