-- ==== Sys2Proof/Machine/Dispatch.lean ====
section
/-! DEFINITION. One arm per operation. -/

namespace Sys2Proof.Machine

/-- The meaning of an operation. -/
def exec (i : Instr) (s : State) : Host.Outcome State Fault Refusal :=
  match i with
  | .get m offset bitsize => Sys2Proof.Machine.execGet m offset bitsize s
  | .set m offset bitsize value => Sys2Proof.Machine.execSet m offset bitsize value s
  | .encode m => Sys2Proof.Machine.execEncode m s
  | .decode byte => Sys2Proof.Machine.execDecode byte s

end Sys2Proof.Machine
end

