-- ==== Sys2Proof/Machine/Step.lean ====
section
/-! DEFINITION. One step: the block takes what the host does next (`00_scope.md` R9, `20_memory.md` R40,
`60_exceptions.md` R137, `70_reset_and_hazards.md` R150). -/

namespace Sys2Proof.Machine

/-- The block receives command word `w`: well-formedness is checked first (R137), then the operation runs. -/
def issue (w : CmdWord) (s : State) : Host.Outcome State Fault Refusal :=
  match decode w with
  | .ok i => exec i s
  | .error _ => .next (s.raise .illegalCommand)

/-- One step of an instance. With nothing pending the block is quiescent: no state changes without an operation (R9). -/
def step (s : State) : Host.Outcome State Fault Refusal :=
  if s.IsInstance then
    match s.pending with
    | [] => .next s
    | .reset :: rest => .next { s with pending := rest }.applyReset
    | .command w :: rest => issue w { s with pending := rest }
  else .refused .noSuchInstance

/-- The host presents the table's word next (log entry 5). -/
def State.withFetchWord (s : State) (nbits w : Nat) : State :=
  { s with pending := .command (tableWord nbits w) :: s.pending }

end Sys2Proof.Machine
end

