-- ==== Sys2Proof/Machine/Processor.lean ====
section
/-! DEFINITION. What stands around the block: sequences of operations (`00_scope.md` R9), the pseudo-operations
(`30_encoding.md` R60), and the Processor's compositions `feed` and `send` (`42_processor_host.md` R121, R122). None of
it adds state or operations to the block. -/

namespace Sys2Proof.Machine

/-- A sequence of operations, each executed to completion before the next (R9, R40). -/
def execAll : List Instr → State → Host.Outcome State Fault Refusal
  | [], s => .next s
  | i :: is, s =>
    match exec i s with
    | .next t => execAll is t
    | .fault r => .fault r
    | .refused r => .refused r

/-- The pseudo-operations (R60). -/
inductive Pseudo
  /-- `LDB m, i, v`: load message byte `i` with `v`. -/
  | ldb (m : MsgSel) (i : Nat) (v : Half)
  /-- `RDB m, i`: read message byte `i`. -/
  | rdb (m : MsgSel) (i : Nat)
  /-- `CLR m`: zero a message. -/
  | clr (m : MsgSel)
  /-- `FEED byte`. -/
  | feed (b : Byte)
  /-- `SEND m`. -/
  | send (m : MsgSel)
  /-- `FEEDSEQ b0, b1, …`. -/
  | feedSeq (bs : List Byte)
deriving DecidableEq, Repr

/-- The operations a pseudo-operation expands to, for payload size `n` (R60). -/
def Pseudo.expand (n : Nat) : Pseudo → List Instr
  | .ldb m i v => [.set m (8 * i) 8 v]
  | .rdb m i => [.get m (8 * i) 8]
  | .clr m => (List.range n).map (fun i => .set m (8 * i) 8 0)
  | .feed b => [.decode b]
  | .send m => [.encode m]
  | .feedSeq bs => bs.map .decode

/-- The last response given. -/
def State.lastResponse (s : State) : Option Response := s.responses.getLast?

/-- `FEED byte` (R121): the outcome of the `DECODE`, and the message handed to `Router.accept`, which is called on
`Complete` only (R123). -/
def feed (b : Byte) (s : State) : Host.Outcome State Fault Refusal × Option (List Byte) :=
  match exec (.decode b) s with
  | .next t => (.next t, if t.lastResponse.map Response.status = some .complete then some t.rx else none)
  | .fault r => (.fault r, none)
  | .refused r => (.refused r, none)

/-- A received byte sequence fed in arrival order: the outcome, and the messages the Router accepts, in order (R121). -/
def feedAll : List Byte → State → Host.Outcome State Fault Refusal × List (List Byte)
  | [], s => (.next s, [])
  | b :: bs, s =>
    match feed b s with
    | (.next t, heard) => ((feedAll bs t).1, heard.toList ++ (feedAll bs t).2)
    | (.fault r, heard) => (.fault r, heard.toList)
    | (.refused r, heard) => (.refused r, heard.toList)

/-- `SEND m` (R122): the outcome of the `ENCODE`, and the bytes handed to `Transport.send`. -/
def send (m : MsgSel) (s : State) : Host.Outcome State Fault Refusal × Option (List Byte) :=
  match exec (.encode m) s with
  | .next t => (.next t, t.lastResponse.map Response.frame)
  | .fault r => (.fault r, none)
  | .refused r => (.refused r, none)

end Sys2Proof.Machine
end

