-- ==== Sys2Proof/Machine/Asm.lean ====
section
/-! DEFINITION. The assembly form of operations and pseudo-operations (`30_encoding.md` R59, R60): one operation per
line, numbers decimal, `0x` or `0b`, `m` written `0`, `1`, `RX` or `TX`, `;` starts a comment. -/

namespace Sys2Proof.Machine

/-- The line up to its comment. -/
def stripComment : List Char → List Char
  | [] => []
  | c :: cs => if c = ';' then [] else c :: stripComment cs

/-- Put a character before the first word of a list of words. -/
def consChar (c : Char) : List (List Char) → List (List Char)
  | [] => [[c]]
  | w :: ws => (c :: w) :: ws

/-- Words separated by blanks; a comma is a word of its own; empty words are dropped by `tokens` (log entry 14). -/
def splitWords : List Char → List (List Char)
  | [] => [[]]
  | c :: cs =>
    if c = ' ' ∨ c = '\t' then [] :: splitWords cs
    else if c = ',' then [] :: [','] :: splitWords cs
    else consChar c (splitWords cs)

/-- The tokens of a line. -/
def tokens (line : List Char) : List (List Char) :=
  (splitWords (stripComment line)).filter (fun w => !w.isEmpty)

/-- The value of a digit in a base. -/
def digitValue (base : Nat) (c : Char) : Option Nat :=
  let v :=
    if '0' ≤ c ∧ c ≤ '9' then c.toNat - '0'.toNat
    else if 'a' ≤ c ∧ c ≤ 'f' then c.toNat - 'a'.toNat + 10
    else if 'A' ≤ c ∧ c ≤ 'F' then c.toNat - 'A'.toNat + 10
    else base
  if v < base then some v else none

/-- Digits after an accumulated value. -/
def parseDigits (base acc : Nat) : List Char → Option Nat
  | [] => some acc
  | c :: cs =>
    match digitValue base c with
    | some v => parseDigits base (acc * base + v) cs
    | none => none

/-- A number (R59). -/
def parseNumber : List Char → Option Nat
  | [] => none
  | '0' :: 'x' :: c :: cs => parseDigits 16 0 (c :: cs)
  | '0' :: 'b' :: c :: cs => parseDigits 2 0 (c :: cs)
  | cs => parseDigits 10 0 cs

/-- A number below a limit (the operand ranges of R59). -/
def parseBelow (limit : Nat) (t : List Char) : Option Nat :=
  match parseNumber t with
  | some v => if v < limit then some v else none
  | none => none

/-- The selector `m` (R59). -/
def parseSel (t : List Char) : Option MsgSel :=
  if t = ['0'] ∨ t = ['R', 'X'] then some .rx
  else if t = ['1'] ∨ t = ['T', 'X'] then some .tx
  else none

/-- Operands separated by commas. -/
def operands : List (List Char) → Option (List (List Char))
  | [] => some []
  | [t] => if t = [','] then none else some [t]
  | t :: c :: ts => if t = [','] ∨ c ≠ [','] ∨ ts = [] then none else (operands ts).map (t :: ·)

/-- Bytes of a `FEEDSEQ`. -/
def parseBytes : List (List Char) → Option (List Byte)
  | [] => some []
  | t :: ts =>
    match parseBelow 256 t, parseBytes ts with
    | some b, some bs => some (BitVec.ofNat 8 b :: bs)
    | _, _ => none

/-- One operation or pseudo-operation from its name and operands (R59, R60), for payload size `n`. DESIGN CHOICE (log
entry 14): R60 shows `FEEDSEQ` with at least one byte; a `FEEDSEQ` without any is accepted and is zero operations. -/
def assembleOp (n : Nat) (name : List Char) (args : List (List Char)) : Option (List Instr) :=
  if name = ['G', 'E', 'T'] then
    match args with
    | [m, o, b] => do pure [.get (← parseSel m) (← parseBelow 2048 o) (← parseBelow 32 b)]
    | _ => none
  else if name = ['S', 'E', 'T'] then
    match args with
    | [m, o, b, v] => do
      pure [.set (← parseSel m) (← parseBelow 2048 o) (← parseBelow 32 b) (BitVec.ofNat 16 (← parseBelow 65536 v))]
    | _ => none
  else if name = ['E', 'N', 'C', 'O', 'D', 'E'] then
    match args with
    | [m] => do pure [.encode (← parseSel m)]
    | _ => none
  else if name = ['D', 'E', 'C', 'O', 'D', 'E'] then
    match args with
    | [b] => do pure [.decode (BitVec.ofNat 8 (← parseBelow 256 b))]
    | _ => none
  else if name = ['L', 'D', 'B'] then
    match args with
    | [m, i, v] => do
      pure ((Pseudo.ldb (← parseSel m) (← parseBelow n i) (BitVec.ofNat 16 (← parseBelow 65536 v))).expand n)
    | _ => none
  else if name = ['R', 'D', 'B'] then
    match args with
    | [m, i] => do pure ((Pseudo.rdb (← parseSel m) (← parseBelow n i)).expand n)
    | _ => none
  else if name = ['C', 'L', 'R'] then
    match args with
    | [m] => do pure ((Pseudo.clr (← parseSel m)).expand n)
    | _ => none
  else if name = ['F', 'E', 'E', 'D'] then
    match args with
    | [b] => do pure ((Pseudo.feed (BitVec.ofNat 8 (← parseBelow 256 b))).expand n)
    | _ => none
  else if name = ['S', 'E', 'N', 'D'] then
    match args with
    | [m] => do pure ((Pseudo.send (← parseSel m)).expand n)
    | _ => none
  else if name = ['F', 'E', 'E', 'D', 'S', 'E', 'Q'] then
    (parseBytes args).map (fun bs => (Pseudo.feedSeq bs).expand n)
  else none

/-- One line (R59); a blank or comment line is no operation. -/
def assembleLine (n : Nat) (line : List Char) : Option (List Instr) :=
  match tokens line with
  | [] => some []
  | name :: rest =>
    match operands rest with
    | some args => assembleOp n name args
    | none => none

/-- A sequence of lines. -/
def assemble (n : Nat) : List (List Char) → Option (List Instr)
  | [] => some []
  | l :: ls =>
    match assembleLine n l, assemble n ls with
    | some a, some b => some (a ++ b)
    | _, _ => none

end Sys2Proof.Machine
end

