-- ==== Sys2Proof/Safety.lean ====
section
/-! DEFINITION. What counts as a good state and a good run, and the views of the state that claims compare
(`10_state.md` R15, R21; `60_exceptions.md` R134). -/

namespace Sys2Proof.Machine

/-- The invariants of R15 that speak of one state (items 1, 2, 3), for an instance of the block. -/
abbrev State.Inv (s : State) : Prop :=
  s.IsInstance ∧ (s.pstate = .idle → s.cursor = 0) ∧
    (s.pstate = .accumulating → 1 ≤ s.cursor.toNat ∧ s.cursor.toNat ≤ s.N + 1) ∧
    (s.pstate = .accumulating → readByte s.buf 0 = Config.marker)

/-- A good run so far: no operation answered with a fault (R134, D16). -/
abbrev State.GoodRun (s : State) : Prop := s.faultSeen = false

/-- The parser's part of the state. -/
structure ParserView where
  pstate : PState
  cursor : BitVec 8
  buf : List Byte
deriving DecidableEq, Repr

/-- The parser's part of a state. -/
def State.parser (s : State) : ParserView := { pstate := s.pstate, cursor := s.cursor, buf := s.buf }

/-- Two states equal but for bytes of `buf` at or above the cursor (R21: never observable). -/
abbrev State.SameButStale (s t : State) : Prop :=
  t = { s with buf := t.buf } ∧ t.buf.length = s.buf.length ∧
    t.buf.take s.cursor.toNat = s.buf.take s.cursor.toNat

/-- Whether an operation is a `DECODE`. -/
def isDecode : Instr → Bool
  | .get _ _ _ => false
  | .set _ _ _ _ => false
  | .encode _ => false
  | .decode _ => true

/-- The relation of R105 between the running sum and the buffer. -/
abbrev RunningSumAgrees (s : State) (acc : Byte) : Prop :=
  s.pstate = .accumulating → acc = checksum (s.buf.take s.cursor.toNat)

end Sys2Proof.Machine
end

