-- ==== Sys2Proof/Certificates/Slice0/Obligations.lean ====
section
/-! DEFINITION. The statements for the provers. Each docstring names the rule of spec/ it formalises. Responses are
written out as `⟨fault, status, err_cause, rdata, frame⟩` (`30_encoding.md` R55). -/

open Sys2Proof Sys2Proof.Machine

/-! ## The command word -/

/-- D9, R54: each well-formed operation is read back from its word, with every operand at every value. -/
def Obligations.DecodeOfEncodeIsTheOperation : Prop :=
  ∀ i : Instr, i.WellFormed → Sys2Proof.decode (Sys2Proof.encode i) = .ok i

/-- D9, R54: each well-formed operation has exactly one encoding. -/
def Obligations.EachOperationHasOneWord : Prop :=
  ∀ (w : CmdWord) (i : Instr), Sys2Proof.decode w = .ok i → i.WellFormed ∧ Sys2Proof.encode i = w

/-- R54: a word is an operation exactly when it matches the row, the operands standing in the bits the table gives, and
a word that matches no row is rejected. -/
def Obligations.DecoderAgreesWithMatchAndMask : Prop :=
  ∀ w : CmdWord,
    (w &&& 0xFE0000FFFF#40 = 0x1000000000#40 ↔ Sys2Proof.decode w =
      .ok (.get (.ofBit (w.extractLsb' 32 1).toNat) (w.extractLsb' 16 11).toNat (w.extractLsb' 27 5).toNat)) ∧
    (w &&& 0xFE00000000#40 = 0x2000000000#40 ↔ Sys2Proof.decode w =
      .ok (.set (.ofBit (w.extractLsb' 32 1).toNat) (w.extractLsb' 16 11).toNat (w.extractLsb' 27 5).toNat
        (w.extractLsb' 0 16))) ∧
    (w &&& 0xFEFFFFFFFF#40 = 0x3000000000#40 ↔ Sys2Proof.decode w = .ok (.encode (.ofBit (w.extractLsb' 32 1).toNat))) ∧
    (w &&& 0xFFFFFFFF00#40 = 0x4000000000#40 ↔ Sys2Proof.decode w = .ok (.decode (w.extractLsb' 0 8))) ∧
    ((∃ r, Sys2Proof.decode w = .error r) ↔
      ¬ rowGet.Matches w ∧ ¬ rowSet.Matches w ∧ ¬ rowEncode.Matches w ∧ ¬ rowDecode.Matches w)

/-- R54, `95_test_vectors.md`: words written out from the encodings, and words no row has. A sanity statement. -/
def Obligations.WrittenWordsDecode : Prop :=
  Sys2Proof.decode 0x1060080000 = .ok (.get .rx 8 12) ∧
  Sys2Proof.decode 0x212006000F = .ok (.set .tx 6 4 0xF) ∧
  Sys2Proof.decode 0x3100000000 = .ok (.encode .tx) ∧
  Sys2Proof.decode 0x40000000AA = .ok (.decode 0xAA) ∧
  Sys2Proof.decode 0x0000000000 = .error .reservedOp ∧
  Sys2Proof.decode 0x1200000000 = .error .reservedBits ∧
  Sys2Proof.decode 0x41000000AA = .error .unusedField

/-! ## The step -/

/-- R9, R40: a step runs the operation that the next command word decodes to, and takes the word from the host's list.
The list is the model's own (log entry 3). -/
def Obligations.StepRunsTheDecodedOperation : Prop :=
  ∀ (s : State) (w : CmdWord) (rest : List HostEvent) (i : Instr),
    s.IsInstance → s.pending = .command w :: rest → Sys2Proof.decode w = .ok i →
      step s = exec i { s with pending := rest }

/-- R9: with nothing presented the block is quiescent: a step leaves the whole state as it is (log entry 11). -/
def Obligations.NothingPendingChangesNothing : Prop :=
  ∀ s : State, s.IsInstance → s.pending = [] → step s = .next s

/-- R135: a word of no row raises `IllegalCommand`, and no state is changed. -/
def Obligations.WordOfNoRowRaisesIllegalCommand : Prop :=
  ∀ (s : State) (w : CmdWord) (rest : List HostEvent),
    s.IsInstance → s.pending = .command w :: rest →
    ¬ rowGet.Matches w → ¬ rowSet.Matches w → ¬ rowEncode.Matches w → ¬ rowDecode.Matches w →
      step s = .next { s with
        pending := rest, responses := s.responses ++ [⟨.illegalCommand, .error, .none, 0, []⟩] }

/-- R137: one operation, one response, at most one abnormal result; well-formedness is checked before legality. -/
def Obligations.OneResponseWithChecksInOrder : Prop :=
  ∀ (s : State) (w : CmdWord) (rest : List HostEvent), s.Inv → s.pending = .command w :: rest →
    ∃ t r, step s = .next t ∧ t.responses = s.responses ++ [r] ∧
      (r.fault = .illegalCommand ↔
        ¬ rowGet.Matches w ∧ ¬ rowSet.Matches w ∧ ¬ rowEncode.Matches w ∧ ¬ rowDecode.Matches w) ∧
      (r.fault = .preconditionError ↔ (rowGet.Matches w ∨ rowSet.Matches w) ∧
        ¬ Legal s.N (w.extractLsb' 16 11).toNat (w.extractLsb' 27 5).toNat) ∧
      (rowDecode.Matches w → r.fault = .none ∧
        ((r.status = .error ∧ r.errCause ≠ .none) ∨ (r.status = .notComplete ∧ r.errCause = .none) ∨
          (r.status = .complete ∧ r.errCause = .none))) ∧
      (r.fault ≠ .none → r.errCause = .none)

/-- R125: every presented word is answered, the block never waits and is ready for the next operation. -/
def Obligations.EveryCommandIsAnswered : Prop :=
  ∀ (s : State) (w : CmdWord) (rest : List HostEvent), s.Inv → s.pending = .command w :: rest →
    ∃ t, step s = .next t ∧ t.pending = rest ∧ t.responses.length = s.responses.length + 1 ∧ t.Inv

/-- A run of the machine over presented words of well-formed operations is the sequence of their meanings (R9, R40). -/
def Obligations.RunOfWordsIsTheSequence : Prop :=
  ∀ (ops : List Instr) (s : State) (rest : List HostEvent), s.IsInstance → (∀ i ∈ ops, i.WellFormed) →
    Host.Core.run Sys2Proof.core ops.length
        { s with pending := ops.map (fun i => HostEvent.command (Sys2Proof.encode i)) ++ rest } =
      execAll ops { s with pending := rest }

/-- R4, U8: a state that is no instance has no step (the refusal's name is the model's, log entry 6). -/
def Obligations.NoInstanceNoStep : Prop :=
  ∀ s : State, (s.N = 0 ∨ 253 < s.N) → step s = .refused .noSuchInstance

/-! ## Reset and invariants -/

/-- R22: after reset the parser is `Idle` with cursor 0, for every payload size; the stores have their sizes and any
contents (free values, log entry 2; the instance that `State.reset` builds is log entry 1). -/
def Obligations.ResetIsIdle : Prop :=
  (∀ n draw, (State.fresh n draw).pstate = .idle ∧ (State.fresh n draw).cursor = 0 ∧ (State.fresh n draw).N = n ∧
    (State.fresh n draw).tx.length = n ∧ (State.fresh n draw).buf.length = n + 2) ∧
  State.reset = State.fresh Config.payloadSize 0

/-- R15: the invariants hold in the reset state, for every legal payload size and every draw. -/
def Obligations.ResetSatisfiesTheInvariants : Prop :=
  (∀ n draw, 1 ≤ n → n ≤ 253 → (State.fresh n draw).Inv) ∧ State.reset.Inv

/-- R15: every step keeps the invariants. -/
def Obligations.StepKeepsTheInvariants : Prop :=
  ∀ s t : State, s.Inv → step s = .next t → t.Inv

/-- R15: under the invariants no step faults or is refused. -/
def Obligations.StepNeverStops : Prop :=
  ∀ s : State, s.Inv → ∃ t, step s = .next t

/-- R4, R150: no step changes the payload size. -/
def Obligations.StepKeepsThePayloadSize : Prop :=
  ∀ s t : State, s.IsInstance → step s = .next t → t.N = s.N ∧ t.IsInstance

/-- R151: a reset abandons the partial frame, reports no outcome for it, and the next `DECODE` takes its byte as a
candidate marker. -/
def Obligations.ResetAbandonsTheFrame : Prop :=
  ∀ (s : State) (rest : List HostEvent), s.IsInstance → s.pending = .reset :: rest →
    ∃ t, step s = .next t ∧ t.pstate = .idle ∧ t.cursor = 0 ∧ t.N = s.N ∧ t.tx.length = s.N ∧
      t.buf.length = s.N + 2 ∧ t.responses = s.responses ∧ t.pending = rest ∧
      (∀ b : Byte, b ≠ 0xAA → exec (.decode b) t =
        .next { t with responses := t.responses ++ [⟨.none, .error, .framing, 0, []⟩] }) ∧
      (∃ u, exec (.decode 0xAA) t = .next u ∧ u.pstate = .accumulating ∧ u.cursor = 1 ∧
        u.responses = t.responses ++ [⟨.none, .notComplete, .none, 0, []⟩])

/-- R13: the cursor is incremented within the buffer and never wraps. -/
def Obligations.CursorNeverWraps : Prop :=
  ∀ (s : State) (b : Byte), s.Inv → s.pstate = .accumulating →
    (s.storeByte b).cursor.toNat = s.cursor.toNat + 1 ∧ s.cursor.toNat < s.buf.length ∧
      (s.storeByte b).cursor.toNat ≤ s.N + 2 ∧ s.N + 2 ≤ 255

/-! ## GET and SET -/

/-- R75: `GET` answers with the field, zero-extended, and writes nothing; illegal operands raise `PreconditionError`; a
`GET` word with a non-zero `wdata` or `rsv` is no operation. The field is the slice of the little-endian number of the
message (R31, R77). -/
def Obligations.GetReturnsTheField : Prop :=
  ∀ (s : State) (m : MsgSel) (o b : Nat), s.IsInstance →
    (Legal s.N o b → exec (.get m o b) s = .next { s with responses := s.responses ++
      [⟨.none, .complete, .none, BitVec.ofNat 16 ((leNat (s.msg m) >>> o) % 2 ^ b), []⟩] }) ∧
    (¬ Legal s.N o b → exec (.get m o b) s = .next { s with responses := s.responses ++
      [⟨.preconditionError, .error, .none, 0, []⟩] }) ∧
    (∀ w : CmdWord, w.extractLsb' 36 4 = 1 → (w.extractLsb' 0 16 ≠ 0 ∨ w.extractLsb' 33 3 ≠ 0) →
      ∃ r, Sys2Proof.decode w = .error r)

/-- R76: `SET` replaces exactly the message bits of the field by the low bits of the value and answers; illegal operands
raise `PreconditionError` and nothing is written; a `SET` word with a non-zero `rsv` is no operation. -/
def Obligations.SetReplacesTheField : Prop :=
  ∀ (s : State) (m : MsgSel) (o b : Nat) (v : Half), s.IsInstance →
    (Legal s.N o b → ∃ M : List Byte, M.length = s.N ∧
      (∀ p, p < 8 * s.N → msgBit M p = if o ≤ p ∧ p < o + b then v.getLsbD (p - o) else msgBit (s.msg m) p) ∧
      exec (.set m o b v) s = .next { s.setMsg m M with responses := s.responses ++
        [⟨.none, .complete, .none, 0, []⟩] }) ∧
    (¬ Legal s.N o b → exec (.set m o b v) s = .next { s with responses := s.responses ++
      [⟨.preconditionError, .error, .none, 0, []⟩] }) ∧
    (∀ w : CmdWord, w.extractLsb' 36 4 = 2 → w.extractLsb' 33 3 ≠ 0 → ∃ r, Sys2Proof.decode w = .error r)

/-- R134: a `GET` or `SET` word whose operands violate P1, P2 or P3 is answered with `PreconditionError`, everything else
unchanged. -/
def Obligations.IllegalOperandsRaisePreconditionError : Prop :=
  ∀ (s : State) (w : CmdWord) (rest : List HostEvent), s.IsInstance → s.pending = .command w :: rest →
    (rowGet.Matches w ∨ rowSet.Matches w) →
    ¬ Legal s.N (w.extractLsb' 16 11).toNat (w.extractLsb' 27 5).toNat →
      step s = .next { s with
        pending := rest, responses := s.responses ++ [⟨.preconditionError, .error, .none, 0, []⟩] }

/-- R36: what `SET` leaves unchanged: the parser, the other register, every byte but the one or two touched ones (those
the meaning's `byteIdx` and `fieldCase` give), every bit outside the field. -/
def Obligations.SetFrame : Prop :=
  ∀ (s t : State) (m : MsgSel) (o b : Nat) (v : Half), s.IsInstance → exec (.set m o b v) s = .next t →
    t.pstate = s.pstate ∧ t.cursor = s.cursor ∧ t.buf = s.buf ∧ t.pending = s.pending ∧ t.draws = s.draws ∧
    (∃ r, t.responses = s.responses ++ [r]) ∧
    (∀ m', m' ≠ m → t.msg m' = s.msg m') ∧ (t.msg m).length = (s.msg m).length ∧
    (∀ k, k ≠ byteIdx o → (fieldCase o b = .one ∨ k ≠ byteIdx o + 1) →
      readByte (t.msg m) k = readByte (s.msg m) k) ∧
    (∀ p, ¬ (o ≤ p ∧ p < o + b) → msgBit (t.msg m) p = msgBit (s.msg m) p)

/-- R35, R37: `GET` and `ENCODE` change no state of the block, and repeating one answers the same. -/
def Obligations.GetAndEncodeOnlyAnswer : Prop :=
  ∀ (s : State) (i : Instr), ((∃ m o b, i = .get m o b) ∨ ∃ m, i = .encode m) →
    ∃ r, exec i s = .next { s with responses := s.responses ++ [r] } ∧
      exec i { s with responses := s.responses ++ [r] } = .next { s with responses := s.responses ++ [r, r] }

/-- R77: one formula for the three cases of `bf_get` and `bf_set`. -/
def Obligations.FieldIsASliceOfTheMessage : Prop :=
  ∀ (M : List Byte) (o b v : Nat), Legal M.length o b →
    bfGet M o b = (leNat M >>> o) % 2 ^ b ∧
    leNat (bfSet M o b v) = leNat M - ((leNat M >>> o) % 2 ^ b) * 2 ^ o + (v % 2 ^ b) * 2 ^ o ∧
    (bfSet M o b v).length = M.length

/-- R78, all seven consequences. -/
def Obligations.FieldLaws : Prop :=
  ∀ (M : List Byte) (o b : Nat) (v w : Nat), Legal M.length o b →
    bfGet (bfSet M o b v) o b = v % 2 ^ b ∧
    bfGet M o b < 2 ^ b ∧
    (∀ o' b', Legal M.length o' b' → (o + b ≤ o' ∨ o' + b' ≤ o) →
      bfGet (bfSet M o b v) o' b' = bfGet M o' b' ∧
      bfSet (bfSet M o b v) o' b' w = bfSet (bfSet M o' b' w) o b v) ∧
    bfSet (bfSet M o b v) o b w = bfSet M o b w ∧
    bfSet M o b (bfGet M o b) = M ∧
    (∀ k, k < M.length → bfGet M (8 * k) 8 = (readByte M k).toNat ∧
      bfSet M (8 * k) 8 v = M.set k (BitVec.ofNat 8 (v % 256))) ∧
    (∀ k, k + 1 < M.length →
      bfGet M (8 * k) 16 = (readByte M k).toNat + 256 * (readByte M (k + 1)).toNat)

/-- R71: legal operands fall in exactly one case, and the second byte exists where there is one. -/
def Obligations.FieldCasesAreExact : Prop :=
  ∀ n o b : Nat, Legal n o b →
    (fieldCase o b = .one ↔ b ≤ 8 ∧ o % 8 + b ≤ 8) ∧
    (fieldCase o b = .straddle ↔ b ≤ 8 ∧ 8 < o % 8 + b) ∧
    (fieldCase o b = .wide ↔ 9 ≤ b ∧ b ≤ 16) ∧
    byteIdx o < n ∧ (fieldCase o b ≠ .one → byteIdx o + 1 ≤ n - 1) ∧
    (fieldCase o b = .straddle → 1 ≤ loBits o ∧ loBits o ≤ 7 ∧ 1 ≤ hiBits o b ∧ hiBits o b ≤ 7) ∧
    (fieldCase o b = .wide → bitShift o = 0)

/-- R138, R134, R135: an operation that faults changes no state, through the step. -/
def Obligations.FaultsChangeNoState : Prop :=
  ∀ (s t : State) (w : CmdWord) (rest : List HostEvent), s.Inv → s.pending = .command w :: rest → step s = .next t →
    ∃ r, t.responses = s.responses ++ [r] ∧
      (r.fault ≠ .none → r.status = .error ∧ r.rdata = 0 ∧ r.frame = [] ∧
        t = { s with pending := rest, responses := s.responses ++ [r] })

/-! ## ENCODE and the checksum -/

/-- R92, R93: `ENCODE m` emits the frame of the register and writes no state, for any content of the register; an
`ENCODE` word with a non-zero unused field is no operation. -/
def Obligations.EncodeEmitsTheFrame : Prop :=
  (∀ (s : State) (m : MsgSel), s.IsInstance →
    ∃ f : List Byte, exec (.encode m) s =
        .next { s with responses := s.responses ++ [⟨.none, .complete, .none, 0, f⟩] } ∧
      f.length = s.N + 2 ∧ f[0]? = some 0xAA ∧
      (∀ k, 1 ≤ k → k ≤ s.N → f[k]? = (s.msg m)[k - 1]?) ∧
      f[s.N + 1]? = some (BitVec.ofNat 8 ((0xAA + ((s.msg m).map BitVec.toNat).sum) % 256))) ∧
  (∀ w : CmdWord, w.extractLsb' 36 4 = 3 → (w.extractLsb' 33 3 ≠ 0 ∨ w.extractLsb' 0 32 ≠ 0) →
    ∃ r, Sys2Proof.decode w = .error r)

/-- R91: the sum reduced once is the sum wrapped at every addition; replacing a byte shifts it by the difference; the
order of the bytes does not matter; the all-zero payload's checksum is `0xAA`; the sum of a frame fits 16 bits. -/
def Obligations.ChecksumProperties : Prop :=
  ∀ l : List Byte,
    checksum l = l.foldl (· + ·) 0 ∧
    (∀ k x, k < l.length → checksum (l.set k x) = checksum l - readByte l k + x) ∧
    (∀ k x, k < l.length → x ≠ readByte l k → checksum (l.set k x) ≠ checksum l) ∧
    (∀ l' : List Byte, l.Perm l' → checksum l' = checksum l) ∧
    (∀ n, checksum (0xAA :: List.replicate n 0) = 0xAA) ∧
    (l.length ≤ 254 → (l.map BitVec.toNat).sum ≤ 64770)

/-! ## DECODE: the five transitions -/

/-- R96, T1: `0xAA` in `Idle` starts a frame. -/
def Obligations.DecodeMarkerInIdle : Prop :=
  ∀ s : State, s.pstate = .idle → exec (.decode 0xAA) s = .next { s with
    pstate := .accumulating, cursor := 1, buf := s.buf.set 0 0xAA,
    responses := s.responses ++ [⟨.none, .notComplete, .none, 0, []⟩] }

/-- R97, T2: any other byte in `Idle` is an `Error` with cause `Framing`, and the state after equals the state before. -/
def Obligations.DecodeNonMarkerInIdle : Prop :=
  ∀ (s : State) (b : Byte), s.Inv → s.pstate = .idle → b ≠ 0xAA → exec (.decode b) s = .next { s with
    responses := s.responses ++ [⟨.none, .error, .framing, 0, []⟩] }

/-- R98, T3: a byte of a frame that is not its last is stored, whatever its value. -/
def Obligations.DecodeInsideAFrame : Prop :=
  ∀ (s : State) (b : Byte), s.IsInstance → s.pstate = .accumulating → s.cursor.toNat + 1 < s.N + 2 →
    exec (.decode b) s = .next { s with
      cursor := BitVec.ofNat 8 (s.cursor.toNat + 1), buf := s.buf.set s.cursor.toNat b,
      responses := s.responses ++ [⟨.none, .notComplete, .none, 0, []⟩] }

/-- R99, T4: the last byte of a frame equals the sum of the marker and payload bytes: the message is copied to `msg[0]`
in the same operation that returns `Complete`. -/
def Obligations.DecodeCompletesAValidFrame : Prop :=
  ∀ (s : State) (b : Byte), s.IsInstance → s.pstate = .accumulating → s.cursor.toNat + 1 = s.N + 2 →
    b = BitVec.ofNat 8 (((s.buf.take (s.N + 1)).map BitVec.toNat).sum % 256) →
    ∃ M : List Byte, M.length = s.N ∧ (∀ i, i < s.N → M[i]? = s.buf[i + 1]?) ∧
      exec (.decode b) s = .next { s with
        pstate := .idle, cursor := 0, buf := s.buf.set (s.N + 1) b, rx := M,
        responses := s.responses ++ [⟨.none, .complete, .none, 0, []⟩] }

/-- R100, T5: the last byte differs from the sum: `Error` with cause `Checksum`, back to `Idle`, `msg[0]` not written. -/
def Obligations.DecodeRejectsABadChecksum : Prop :=
  ∀ (s : State) (b : Byte), s.IsInstance → s.pstate = .accumulating → s.cursor.toNat + 1 = s.N + 2 →
    b ≠ BitVec.ofNat 8 (((s.buf.take (s.N + 1)).map BitVec.toNat).sum % 256) →
    exec (.decode b) s = .next { s with
      pstate := .idle, cursor := 0, buf := s.buf.set (s.N + 1) b,
      responses := s.responses ++ [⟨.none, .error, .checksum, 0, []⟩] }

/-- R94, R95: under the invariants the five rows of the transition table are exhaustive: `DECODE` of any byte completes,
keeps the invariants, gives one response without a fault, and takes one of the rows T1 to T5. The conditions exclude each
other, so it takes exactly one. -/
def Obligations.DecodeTakesOneOfTheFiveTransitions : Prop :=
  ∀ (s : State) (b : Byte), s.Inv → ∃ t r,
    exec (.decode b) s = .next t ∧ t.Inv ∧ t.responses = s.responses ++ [r] ∧ r.fault = .none ∧
    ((s.pstate = .idle ∧ b = 0xAA ∧
        t.pstate = .accumulating ∧ t.cursor.toNat = 1 ∧ r.status = .notComplete ∧ r.errCause = .none) ∨
     (s.pstate = .idle ∧ b ≠ 0xAA ∧
        t.pstate = .idle ∧ t.cursor.toNat = 0 ∧ r.status = .error ∧ r.errCause = .framing) ∨
     (s.pstate = .accumulating ∧ s.cursor.toNat + 1 < s.N + 2 ∧
        t.pstate = .accumulating ∧ t.cursor.toNat = s.cursor.toNat + 1 ∧ r.status = .notComplete ∧ r.errCause = .none) ∨
     (s.pstate = .accumulating ∧ s.cursor.toNat + 1 = s.N + 2 ∧ checksum (s.buf.take (s.N + 1)) = b ∧
        t.pstate = .idle ∧ t.cursor.toNat = 0 ∧ r.status = .complete ∧ r.errCause = .none) ∨
     (s.pstate = .accumulating ∧ s.cursor.toNat + 1 = s.N + 2 ∧ checksum (s.buf.take (s.N + 1)) ≠ b ∧
        t.pstate = .idle ∧ t.cursor.toNat = 0 ∧ r.status = .error ∧ r.errCause = .checksum))

/-- R11, R35: what `DECODE` leaves unchanged: `msg[1]`, the host's list, every byte of `buf` but the one stored (index 0
for a marker in `Idle`, the cursor in `Accumulating`); and `msg[0]` is written when, and only when, the answer is
`Complete`. -/
def Obligations.DecodeFrame : Prop :=
  ∀ (s t : State) (b : Byte), s.IsInstance → exec (.decode b) s = .next t →
    t.tx = s.tx ∧ t.pending = s.pending ∧ t.draws = s.draws ∧ t.buf.length = s.buf.length ∧
    (∀ k, (s.pstate = .idle → b = 0xAA → k ≠ 0) → (s.pstate = .accumulating → k ≠ s.cursor.toNat) →
      readByte t.buf k = readByte s.buf k) ∧
    ∃ r, t.responses = s.responses ++ [r] ∧ r.fault = .none ∧ r.rdata = 0 ∧ r.frame = [] ∧
      (r.status = .complete → t.rx = (t.buf.drop 1).take s.N) ∧ (r.status ≠ .complete → t.rx = s.rx)

/-- R133: `err_cause` is a function of the parser state before the operation. -/
def Obligations.ErrorCauseFollowsTheParserState : Prop :=
  ∀ (s t : State) (b : Byte), s.IsInstance → exec (.decode b) s = .next t →
    ∃ r, t.responses = s.responses ++ [r] ∧
      (r.errCause = .framing ↔ r.status = .error ∧ s.pstate = .idle) ∧
      (r.errCause = .checksum ↔ r.status = .error ∧ s.pstate = .accumulating) ∧
      r.errCause = causeOf s.pstate r.status

/-- R138, R139: after any `Error` the parser is in `Idle` with cursor 0, `msg[0]` and `msg[1]` are kept, and the next
byte is taken as a fresh candidate marker. -/
def Obligations.ErrorReturnsToIdle : Prop :=
  ∀ (s t : State) (b : Byte) (r : Response), s.Inv → exec (.decode b) s = .next t →
    t.responses = s.responses ++ [r] → r.status = .error →
      t.pstate = .idle ∧ t.cursor = 0 ∧ t.rx = s.rx ∧ t.tx = s.tx ∧
      (∃ u, exec (.decode 0xAA) t = .next u ∧ u.pstate = .accumulating ∧ u.cursor = 1) ∧
      (∀ b' : Byte, b' ≠ 0xAA → exec (.decode b') t =
        .next { t with responses := t.responses ++ [⟨.none, .error, .framing, 0, []⟩] })

/-! ## DECODE: sequences of bytes -/

/-- R97, S2: any sequence of non-marker bytes in `Idle` is answered by `Error` each time and never changes the state. -/
def Obligations.NoiseInIdleChangesNothing : Prop :=
  ∀ (s : State) (l : List Byte), s.Inv → s.pstate = .idle → (∀ b ∈ l, b ≠ 0xAA) →
    execAll (l.map .decode) s = .next { s with
      responses := s.responses ++ List.replicate l.length ⟨.none, .error, .framing, 0, []⟩ }

/-- R101: from `Idle`, a marker and `N+1` further bytes of any value give `NotComplete` for the first `N+1` of them and
exactly one outcome on the last, `Complete` exactly when the last byte is the checksum; after the `k`-th the parser is in
`Accumulating` with cursor `k`, and the buffer starts with the bytes accepted (R15 item 4). -/
def Obligations.AFrameTakesExactlyItsLength : Prop :=
  ∀ (s : State) (body : List Byte), s.Inv → s.pstate = .idle →
    (body.length ≤ s.N → ∃ t, execAll ((0xAA :: body).map .decode) s = .next t ∧ t.pstate = .accumulating ∧
      t.cursor.toNat = body.length + 1 ∧ t.buf.take (body.length + 1) = 0xAA :: body ∧
      t.buf.drop (body.length + 1) = s.buf.drop (body.length + 1) ∧ t.rx = s.rx ∧ t.tx = s.tx ∧
      t.responses = s.responses ++ List.replicate (body.length + 1) ⟨.none, .notComplete, .none, 0, []⟩) ∧
    (body.length = s.N → ∀ last : Byte,
      execAll ((0xAA :: (body ++ [last])).map .decode) s = .next { s with
        buf := 0xAA :: (body ++ [last])
        rx := if last = checksum (0xAA :: body) then body else s.rx
        responses := s.responses ++ List.replicate (s.N + 1) ⟨.none, .notComplete, .none, 0, []⟩ ++
          [if last = checksum (0xAA :: body) then ⟨.none, .complete, .none, 0, []⟩
           else ⟨.none, .error, .checksum, 0, []⟩] })

/-- R102: for every `N` and every message, feeding the frame of the message from `Idle` gives `NotComplete` `N+1` times
and then `Complete`, and leaves the message in `msg[0]` and the parser in `Idle`. -/
def Obligations.FrameRoundTrip : Prop :=
  ∀ (s : State) (M : List Byte), s.Inv → s.pstate = .idle → M.length = s.N →
    execAll ((encodeFrame M).map .decode) s = .next { s with
      buf := encodeFrame M, rx := M,
      responses := s.responses ++ List.replicate (s.N + 1) ⟨.none, .notComplete, .none, 0, []⟩ ++
        [⟨.none, .complete, .none, 0, []⟩] }

/-- R102, R93: what `ENCODE m` emits, fed back to the same block in `Idle`, arrives in `msg[0]`. -/
def Obligations.EmittedFrameFedBackArrives : Prop :=
  ∀ (s : State) (m : MsgSel), s.Inv → s.pstate = .idle →
    ∃ t r, exec (.encode m) s = .next t ∧ t.responses = s.responses ++ [r] ∧
      ∃ u, execAll (r.frame.map .decode) t = .next u ∧ u.rx = s.msg m ∧ u.tx = s.tx ∧ u.pstate = .idle ∧
        u.lastResponse.map Response.status = some .complete

/-- R103 item 4: after noise without a marker, a valid frame decodes normally (Scenario B). -/
def Obligations.ResynchronisationAfterNoise : Prop :=
  ∀ (s : State) (noise M : List Byte), s.Inv → s.pstate = .idle → (∀ b ∈ noise, b ≠ 0xAA) → M.length = s.N →
    execAll ((noise ++ encodeFrame M).map .decode) s = .next { s with
      buf := encodeFrame M, rx := M,
      responses := s.responses ++ List.replicate noise.length ⟨.none, .error, .framing, 0, []⟩ ++
        List.replicate (s.N + 1) ⟨.none, .notComplete, .none, 0, []⟩ ++ [⟨.none, .complete, .none, 0, []⟩] }

/-- R104: a frame that differs from a valid one only in its last byte, or in exactly one payload byte, ends in `Error`
with cause `Checksum` and `msg[0]` is kept; one that differs in byte 0 is rejected at that byte. -/
def Obligations.OneWrongByteIsDetected : Prop :=
  ∀ (s : State) (M : List Byte) (x : Byte), s.Inv → s.pstate = .idle → M.length = s.N →
    (x ≠ checksum (0xAA :: M) → ∃ t, execAll ((0xAA :: (M ++ [x])).map .decode) s = .next t ∧ t.rx = s.rx ∧
      t.pstate = .idle ∧ t.lastResponse = some ⟨.none, .error, .checksum, 0, []⟩) ∧
    (∀ k, k < s.N → x ≠ readByte M k →
      ∃ t, execAll ((0xAA :: (M.set k x ++ [checksum (0xAA :: M)])).map .decode) s = .next t ∧ t.rx = s.rx ∧
        t.pstate = .idle ∧ t.lastResponse = some ⟨.none, .error, .checksum, 0, []⟩) ∧
    (x ≠ 0xAA → execAll ((x :: (M ++ [checksum (0xAA :: M)])).map .decode) s =
      execAll ((M ++ [checksum (0xAA :: M)]).map .decode)
        { s with responses := s.responses ++ [⟨.none, .error, .framing, 0, []⟩] })

/-- R51 item 4, R158: the checksum does not see payload bytes exchanged: the permuted message is delivered. -/
def Obligations.PermutedPayloadIsNotDetected : Prop :=
  ∀ (s : State) (M M' : List Byte), s.Inv → s.pstate = .idle → M.length = s.N → M.Perm M' →
    ∃ t, execAll ((0xAA :: (M' ++ [checksum (0xAA :: M)])).map .decode) s = .next t ∧ t.rx = M' ∧
      t.lastResponse = some ⟨.none, .complete, .none, 0, []⟩

/-- R101, R139: whatever bytes come, a frame in flight ends after exactly the bytes it still lacks, in `Idle`: corrupted
input never wedges the decoder. -/
def Obligations.AFrameInFlightAlwaysEnds : Prop :=
  ∀ (s : State) (l : List Byte), s.Inv → s.pstate = .accumulating → l.length + s.cursor.toNat = s.N + 2 →
    ∃ t r, execAll (l.map .decode) s = .next t ∧ t.pstate = .idle ∧ t.lastResponse = some r ∧
      (r.status = .complete ∨ r = ⟨.none, .error, .checksum, 0, []⟩)

/-- R106: while other operations are issued, a stalled frame stays where it is, and the next `DECODE` continues it as if
they had not been issued. -/
def Obligations.AStalledFrameWaits : Prop :=
  ∀ (s : State) (ops : List Instr), s.Inv → (∀ i ∈ ops, isDecode i = false) →
    ∃ t, execAll ops s = .next t ∧ t.parser = s.parser ∧ t.N = s.N ∧
      ∀ b : Byte, ∃ u v, exec (.decode b) t = .next u ∧ exec (.decode b) s = .next v ∧ u.parser = v.parser ∧
        u.lastResponse = v.lastResponse

/-- R12, R94, R124: the parser sees only the `DECODE`s: any other operations put between them make no difference to it. -/
def Obligations.ParserIgnoresOtherOperations : Prop :=
  ∀ (s : State) (ops : List Instr), s.Inv →
    ∃ t u, execAll ops s = .next t ∧ execAll (ops.filter isDecode) s = .next u ∧ t.parser = u.parser ∧ t.N = u.N

/-- R21: bytes of `buf` at or above the cursor are never observable: two states that differ only there give the same
responses and messages for ever. -/
def Obligations.StaleBufferBytesAreUnobservable : Prop :=
  ∀ (ops : List Instr) (s t : State), s.Inv → s.SameButStale t →
    ∃ s' t', execAll ops s = .next s' ∧ execAll ops t = .next t' ∧ s'.SameButStale t'

/-- R17: a response describes its own operation only; no operation depends on what was answered before. -/
def Obligations.ResponsesAreNotSticky : Prop :=
  ∀ (ops : List Instr) (s t : State) (past : List Response), s.IsInstance → execAll ops s = .next t →
    ∃ given, t.responses = s.responses ++ given ∧ given.length = ops.length ∧
      execAll ops { s with responses := past } = .next { t with responses := past ++ given }

/-- R157: from `Idle`, `msg[0]` cannot be overwritten before the `(N+2)`-th `DECODE`. -/
def Obligations.RxIsStableForAFrame : Prop :=
  ∀ (s : State) (l : List Byte), s.Inv → s.pstate = .idle → l.length ≤ s.N + 1 →
    ∃ t, execAll (l.map .decode) s = .next t ∧ t.rx = s.rx ∧ t.tx = s.tx

/-- R105: an implementation that keeps an 8-bit running sum behaves the same, and its sum is the checksum of the bytes
accepted. -/
def Obligations.RunningChecksumIsEquivalent : Prop :=
  ∀ (s : State) (acc b : Byte), s.Inv → RunningSumAgrees s acc →
    execDecodeRunning acc b s = exec (.decode b) s ∧
      ∀ t, exec (.decode b) s = .next t → RunningSumAgrees t (runningSum s acc b)

/-! ## Around the block -/

/-- R121: `FEED` forwards `msg[0]`, as it stands right after the `DECODE`, to the Router on `Complete`, and nothing
otherwise. -/
def Obligations.FeedCallsTheRouterOnComplete : Prop :=
  ∀ (s : State) (b : Byte), s.Inv →
    ∃ t r, exec (.decode b) s = .next t ∧ t.responses = s.responses ++ [r] ∧
      (feed b s).1 = .next t ∧ (r.status = .complete → (feed b s).2 = some t.rx) ∧
      (r.status ≠ .complete → (feed b s).2 = none)

/-- R122: `SEND m` encodes the register and hands exactly the `N+2` frame bytes to the Transport. -/
def Obligations.SendHandsOverTheFrame : Prop :=
  ∀ (s : State) (m : MsgSel), s.IsInstance →
    ∃ t f, exec (.encode m) s = .next t ∧ t.lastResponse.map Response.frame = some f ∧
      (send m s).1 = .next t ∧ (send m s).2 = some f ∧ f.length = s.N + 2

/-- R102, R121: frames fed one after another from `Idle` reach the Router as exactly the messages sent, in order. -/
def Obligations.RouterHearsTheMessagesSent : Prop :=
  ∀ (Ms : List (List Byte)) (s : State), s.Inv → s.pstate = .idle → (∀ M ∈ Ms, M.length = s.N) →
    ∃ t, feedAll (Ms.flatMap encodeFrame) s = (.next t, Ms) ∧ t.pstate = .idle

/-- R60: `CLR m` zeroes the register, `LDB` loads one byte of it, `RDB` reads one byte. -/
def Obligations.PseudoOperationsDoWhatTheySay : Prop :=
  ∀ (s : State) (m : MsgSel), s.IsInstance →
    (execAll ((Pseudo.clr m).expand s.N) s = .next { s.setMsg m (List.replicate s.N 0) with
      responses := s.responses ++ List.replicate s.N ⟨.none, .complete, .none, 0, []⟩ }) ∧
    (∀ i v, i < s.N → execAll ((Pseudo.ldb m i v).expand s.N) s =
      .next { s.setMsg m ((s.msg m).set i (BitVec.ofNat 8 (v.toNat % 256))) with
        responses := s.responses ++ [⟨.none, .complete, .none, 0, []⟩] }) ∧
    (∀ i, i < s.N → execAll ((Pseudo.rdb m i).expand s.N) s = .next { s with
      responses := s.responses ++ [⟨.none, .complete, .none, BitVec.ofNat 16 (readByte (s.msg m) i).toNat, []⟩] })

/-- R59, R60: every line the assembler accepts gives well-formed operations. -/
def Obligations.AssemblerGivesWellFormedOperations : Prop :=
  ∀ (n : Nat) (line : List Char) (ops : List Instr), n ≤ 253 → assembleLine n line = some ops →
    ∀ i ∈ ops, i.WellFormed
end

