-- ==== Sys2Proof/Laws/State.lean ====
section
/-! SUPPORT. One lemma per field per update of the state, so that no later proof unfolds a record update. -/

namespace Sys2Proof.Machine

section Respond

variable (s : State) (r : Response) (f : FaultCode)

@[simp] theorem State.respond_pstate : (s.respond r).pstate = s.pstate := rfl
@[simp] theorem State.respond_cursor : (s.respond r).cursor = s.cursor := rfl
@[simp] theorem State.respond_buf : (s.respond r).buf = s.buf := rfl
@[simp] theorem State.respond_rx : (s.respond r).rx = s.rx := rfl
@[simp] theorem State.respond_tx : (s.respond r).tx = s.tx := rfl
@[simp] theorem State.respond_pending : (s.respond r).pending = s.pending := rfl
@[simp] theorem State.respond_responses : (s.respond r).responses = s.responses ++ [r] := rfl
@[simp] theorem State.respond_draws : (s.respond r).draws = s.draws := rfl
@[simp] theorem State.respond_N : (s.respond r).N = s.N := rfl
@[simp] theorem State.respond_frameSize : (s.respond r).frameSize = s.frameSize := rfl
@[simp] theorem State.respond_msg (m : MsgSel) : (s.respond r).msg m = s.msg m := by cases m <;> rfl
@[simp] theorem State.raise_eq_respond : s.raise f = s.respond (Response.faulted f) := rfl

end Respond

section SetMsg

variable (s : State) (m : MsgSel) (M : List Byte)

@[simp] theorem State.setMsg_pstate : (s.setMsg m M).pstate = s.pstate := by cases m <;> rfl
@[simp] theorem State.setMsg_cursor : (s.setMsg m M).cursor = s.cursor := by cases m <;> rfl
@[simp] theorem State.setMsg_buf : (s.setMsg m M).buf = s.buf := by cases m <;> rfl
@[simp] theorem State.setMsg_pending : (s.setMsg m M).pending = s.pending := by cases m <;> rfl
@[simp] theorem State.setMsg_responses : (s.setMsg m M).responses = s.responses := by cases m <;> rfl
@[simp] theorem State.setMsg_draws : (s.setMsg m M).draws = s.draws := by cases m <;> rfl
@[simp] theorem State.setMsg_msg_same : (s.setMsg m M).msg m = M := by cases m <;> rfl

/-- A write to one register never changes the other (R11). -/
theorem State.setMsg_msg_other {m' : MsgSel} (h : m' ≠ m) : (s.setMsg m M).msg m' = s.msg m' := by
  cases m <;> cases m' <;> first | rfl | exact absurd rfl h

/-- A write of a message of the same length keeps `N`. -/
theorem State.setMsg_N (h : M.length = (s.msg m).length) : (s.setMsg m M).N = s.N := by
  cases m
  · exact h
  · rfl

end SetMsg

section Parser

variable (s : State) (b : Byte)

@[simp] theorem State.enterIdle_pstate : s.enterIdle.pstate = .idle := rfl
@[simp] theorem State.enterIdle_cursor : s.enterIdle.cursor = 0 := rfl
@[simp] theorem State.enterIdle_buf : s.enterIdle.buf = s.buf := rfl
@[simp] theorem State.enterIdle_rx : s.enterIdle.rx = s.rx := rfl
@[simp] theorem State.enterIdle_tx : s.enterIdle.tx = s.tx := rfl
@[simp] theorem State.enterIdle_pending : s.enterIdle.pending = s.pending := rfl
@[simp] theorem State.enterIdle_responses : s.enterIdle.responses = s.responses := rfl
@[simp] theorem State.enterIdle_draws : s.enterIdle.draws = s.draws := rfl
@[simp] theorem State.enterIdle_N : s.enterIdle.N = s.N := rfl
@[simp] theorem State.enterIdle_frameSize : s.enterIdle.frameSize = s.frameSize := rfl

@[simp] theorem State.acceptMarker_pstate : (s.acceptMarker b).pstate = .accumulating := rfl
@[simp] theorem State.acceptMarker_cursor : (s.acceptMarker b).cursor = 1 := rfl
@[simp] theorem State.acceptMarker_buf : (s.acceptMarker b).buf = writeByte s.buf 0 b := rfl
@[simp] theorem State.acceptMarker_rx : (s.acceptMarker b).rx = s.rx := rfl
@[simp] theorem State.acceptMarker_tx : (s.acceptMarker b).tx = s.tx := rfl
@[simp] theorem State.acceptMarker_pending : (s.acceptMarker b).pending = s.pending := rfl
@[simp] theorem State.acceptMarker_responses : (s.acceptMarker b).responses = s.responses := rfl
@[simp] theorem State.acceptMarker_draws : (s.acceptMarker b).draws = s.draws := rfl
@[simp] theorem State.acceptMarker_N : (s.acceptMarker b).N = s.N := rfl
@[simp] theorem State.acceptMarker_frameSize : (s.acceptMarker b).frameSize = s.frameSize := rfl

@[simp] theorem State.storeByte_pstate : (s.storeByte b).pstate = s.pstate := rfl
@[simp] theorem State.storeByte_cursor : (s.storeByte b).cursor = s.cursor + 1 := rfl
@[simp] theorem State.storeByte_buf : (s.storeByte b).buf = writeByte s.buf s.cursor.toNat b := rfl
@[simp] theorem State.storeByte_rx : (s.storeByte b).rx = s.rx := rfl
@[simp] theorem State.storeByte_tx : (s.storeByte b).tx = s.tx := rfl
@[simp] theorem State.storeByte_pending : (s.storeByte b).pending = s.pending := rfl
@[simp] theorem State.storeByte_responses : (s.storeByte b).responses = s.responses := rfl
@[simp] theorem State.storeByte_draws : (s.storeByte b).draws = s.draws := rfl
@[simp] theorem State.storeByte_N : (s.storeByte b).N = s.N := rfl
@[simp] theorem State.storeByte_frameSize : (s.storeByte b).frameSize = s.frameSize := rfl

@[simp] theorem State.deliver_pstate : s.deliver.pstate = s.pstate := rfl
@[simp] theorem State.deliver_cursor : s.deliver.cursor = s.cursor := rfl
@[simp] theorem State.deliver_buf : s.deliver.buf = s.buf := rfl
@[simp] theorem State.deliver_rx : s.deliver.rx = (s.buf.drop 1).take s.N := rfl
@[simp] theorem State.deliver_tx : s.deliver.tx = s.tx := rfl
@[simp] theorem State.deliver_pending : s.deliver.pending = s.pending := rfl
@[simp] theorem State.deliver_responses : s.deliver.responses = s.responses := rfl
@[simp] theorem State.deliver_draws : s.deliver.draws = s.draws := rfl

/-- Delivering a message keeps `N` when the buffer has its `N + 2` bytes. -/
theorem State.deliver_N (h : s.buf.length = s.frameSize) : s.deliver.N = s.N := by
  simp only [State.N, State.deliver_rx, List.length_take, List.length_drop, h, State.frameSize]
  omega

end Parser

section Reset

variable (s : State)

@[simp] theorem State.contents_buf : s.contents.buf = s.buf := rfl
@[simp] theorem State.contents_rx : s.contents.rx = s.rx := rfl
@[simp] theorem State.contents_tx : s.contents.tx = s.tx := rfl

@[simp] theorem unspecified_length (draw : Nat) (before : Contents) (r : Store) (n : Nat) :
    (unspecified draw before r n).length = n := by
  simp [unspecified]

/-- One byte after a reset: the free value, stable until written (R22). -/
theorem unspecified_getElem? {draw : Nat} {before : Contents} {r : Store} {n i : Nat} (h : i < n) :
    (unspecified draw before r n)[i]? = some (Config.resetByte draw before r i) := by
  simp [unspecified, h]

@[simp] theorem State.applyReset_pstate : s.applyReset.pstate = .idle := rfl
@[simp] theorem State.applyReset_cursor : s.applyReset.cursor = 0 := rfl
@[simp] theorem State.applyReset_pending : s.applyReset.pending = s.pending := rfl
@[simp] theorem State.applyReset_responses : s.applyReset.responses = s.responses := rfl
@[simp] theorem State.applyReset_draws : s.applyReset.draws = s.draws + 1 := rfl
@[simp] theorem State.applyReset_buf_length : s.applyReset.buf.length = s.frameSize := unspecified_length _ _ _ _
@[simp] theorem State.applyReset_tx_length : s.applyReset.tx.length = s.N := unspecified_length _ _ _ _
@[simp] theorem State.applyReset_N : s.applyReset.N = s.N := unspecified_length _ _ _ _

end Reset

section Pending

variable (s : State) (l : List HostEvent)

@[simp] theorem State.withPending_N : ({ s with pending := l } : State).N = s.N := rfl
@[simp] theorem State.withPending_frameSize : ({ s with pending := l } : State).frameSize = s.frameSize := rfl

/-- Being an instance does not depend on what the host does next. -/
theorem State.withPending_isInstance : ({ s with pending := l } : State).IsInstance ↔ s.IsInstance := Iff.rfl

end Pending

/-- In an instance both registers have `N` bytes. -/
theorem State.IsInstance.msg_length {s : State} (h : s.IsInstance) (m : MsgSel) : (s.msg m).length = s.N := by
  cases m
  · rfl
  · exact h.2.2.1

end Sys2Proof.Machine
end

