-- ==== Sys2Proof/Laws/Bitfield.lean ====
section
/-! SUPPORT. What the bitfield unit's shared operations do, said once by bits: `bf_get` reads message bits,
`bf_set` replaces message bits, `LE` numbers them (`20_memory.md` R30, R31; `40_bitfield.md` R73, R74). -/

namespace Sys2Proof.Machine

theorem readByte_writeByte_same {M : List Byte} {i : Nat} (h : i < M.length) (v : Byte) :
    readByte (writeByte M i v) i = v := by
  simp [readByte, writeByte, h]

theorem readByte_writeByte_other (M : List Byte) {i j : Nat} (h : i ≠ j) (v : Byte) :
    readByte (writeByte M i v) j = readByte M j := by
  simp [readByte, writeByte, List.getElem?_set_ne h]

@[simp] theorem writeByte_length (M : List Byte) (i : Nat) (v : Byte) : (writeByte M i v).length = M.length := by
  simp [writeByte]

@[simp] theorem bfSet_length (M : List Byte) (o b v : Nat) : (bfSet M o b v).length = M.length := by
  unfold bfSet
  cases fieldCase o b <;> simp

theorem maskOf_eq (n : Nat) : maskOf n = 2 ^ n - 1 := by simp [maskOf, Nat.shiftLeft_eq]

theorem maskOf_testBit (n i : Nat) : (maskOf n).testBit i = decide (i < n) := by
  rw [maskOf_eq, Nat.testBit_two_pow_sub_one]

theorem wideLoMask_testBit {b : Nat} (h : 8 < b) (i : Nat) : (wideLoMask b).testBit i = decide (i < 8) := by
  have e : (0xFF : Nat) = maskOf 8 := by decide
  rw [wideLoMask, e, Nat.testBit_and, maskOf_testBit, maskOf_testBit]
  by_cases h8 : i < 8
  · simp [h8]; omega
  · simp [h8]

theorem wideHiMask_testBit (b i : Nat) : (wideHiMask b).testBit i = decide (i + 8 < b) := by
  rw [wideHiMask, Nat.testBit_shiftRight, maskOf_testBit, Nat.add_comm]

theorem byte_testBit_of_le (x : Byte) {i : Nat} (h : 8 ≤ i) : x.toNat.testBit i = false :=
  Nat.testBit_lt_two_pow (Nat.lt_of_lt_of_le x.isLt (Nat.pow_le_pow_right (by decide) h))

/-- A bit of the byte that `mergeByte` writes. -/
theorem mergeByte_getLsbD {old mask new i : Nat} (hm : mask < 256) (hi : i < 8) :
    (mergeByte old mask new).getLsbD i = ((old.testBit i && !mask.testBit i) || new.testBit i) := by
  have e : not8 mask = 2 ^ 8 - (mask + 1) := by unfold not8; omega
  rw [mergeByte, BitVec.getLsbD_ofNat, Nat.testBit_or, Nat.testBit_and, e, Nat.testBit_two_pow_sub_succ (by omega)]
  simp [hi]

/-- Bits of the little-endian number are message bits (R7, R30). -/
theorem leNat_testBit (M : List Byte) (p : Nat) : (leNat M).testBit p = msgBit M p := by
  induction M generalizing p with
  | nil => simp [leNat, msgBit, readByte]
  | cons b M ih =>
    have e : leNat (b :: M) = 2 ^ 8 * leNat M + b.toNat := by simp [leNat]; omega
    rw [e, Nat.testBit_two_pow_mul_add _ (by exact b.isLt)]
    by_cases hp : p < 8
    · simp [hp, msgBit, readByte, Nat.div_eq_of_lt hp, Nat.mod_eq_of_lt hp, BitVec.testBit_toNat]
    · obtain ⟨q, rfl⟩ : ∃ q, p = q + 8 := ⟨p - 8, by omega⟩
      rw [if_neg hp, ih]
      simp [msgBit, readByte]

theorem leNat_lt (M : List Byte) : leNat M < 2 ^ (8 * M.length) := by
  induction M with
  | nil => simp [leNat]
  | cons b M ih =>
    have hb := b.isLt
    have e : 2 ^ (8 * (b :: M).length) = 256 * 2 ^ (8 * M.length) := by
      rw [List.length_cons, Nat.mul_add, Nat.pow_add, Nat.mul_comm]
    rw [e, leNat]
    omega

/-- The byte that holds message bit `o + i`, and the bit's place in it. -/
theorem msgBit_of_split (M : List Byte) {p q r : Nat} (h : p = 8 * q + r) (hr : r < 8) :
    msgBit M p = (readByte M q).toNat.testBit r := by
  have hq : p / 8 = q := by omega
  have hm : p % 8 = r := by omega
  rw [msgBit, hq, hm, BitVec.testBit_toNat]

/-- Messages of one length with the same bits are the same. -/
theorem eq_of_msgBit {M M' : List Byte} (hl : M.length = M'.length)
    (h : ∀ p, p < 8 * M.length → msgBit M p = msgBit M' p) : M = M' := by
  refine List.ext_getElem hl fun k hk hk' => BitVec.eq_of_getLsbD_eq fun i hi => ?_
  have hb := h (8 * k + i) (by omega)
  rw [msgBit_of_split M rfl hi, msgBit_of_split M' rfl hi, BitVec.testBit_toNat, BitVec.testBit_toNat] at hb
  simpa [readByte, List.getElem?_eq_getElem hk, List.getElem?_eq_getElem hk'] using hb

/-- SPEC LEMMA of `bf_get`: bit `i` of the value is message bit `offset + i` below the width, and 0 above (R31, R73). -/
theorem bfGet_testBit {M : List Byte} {o b : Nat} (h : Legal M.length o b) (i : Nat) :
    (bfGet M o b).testBit i = (decide (i < b) && msgBit M (o + i)) := by
  obtain ⟨⟨h1, h16⟩, ha, hn⟩ := h
  have h16 : b ≤ 16 := h16
  unfold bfGet fieldCase
  by_cases h8 : b ≤ 8
  · by_cases hs : bitShift o + b ≤ 8
    · simp only [h8, hs, if_true, Nat.testBit_and, Nat.testBit_shiftRight, maskOf_testBit]
      by_cases hi : i < b
      · rw [msgBit_of_split M (q := byteIdx o) (r := bitShift o + i) (by unfold byteIdx bitShift; omega) (by omega)]
        simp [hi]
      · simp [hi]
    · simp only [h8, hs, if_true, if_false, Nat.testBit_or, Nat.testBit_and, Nat.testBit_shiftRight,
        Nat.testBit_shiftLeft, maskOf_testBit]
      have hlo : loBits o = 8 - bitShift o := rfl
      have hhi : hiBits o b = b - loBits o := rfl
      have hsh : bitShift o < 8 := Nat.mod_lt _ (by decide)
      by_cases hl : i < loBits o
      · rw [msgBit_of_split M (q := byteIdx o) (r := bitShift o + i) (by unfold byteIdx bitShift; omega) (by omega)]
        have : i < b := by omega
        simp [hl, this]
      · by_cases hi : i < b
        · rw [msgBit_of_split M (q := byteIdx o + 1) (r := i - loBits o)
            (by unfold byteIdx; unfold loBits bitShift at *; omega) (by omega)]
          have h2 : i - loBits o < hiBits o b := by omega
          have h3 : loBits o ≤ i := by omega
          simp [hi, h2, h3]
        · have h2 : ¬ i - loBits o < hiBits o b := by omega
          simp [hl, hi, h2]
  · have hz : o % 8 = 0 := ha (by omega)
    simp only [h8, if_false, Nat.testBit_or, Nat.testBit_and, Nat.testBit_shiftLeft,
      wideLoMask_testBit (show 8 < b by omega), wideHiMask_testBit]
    by_cases hl : i < 8
    · rw [msgBit_of_split M (q := byteIdx o) (r := i) (by unfold byteIdx; omega) hl]
      have h2 : ¬ 8 ≤ i := by omega
      have h3 : i < b := by omega
      simp [hl, h2, h3]
    · by_cases hi : i < b
      · rw [msgBit_of_split M (q := byteIdx o + 1) (r := i - 8) (by unfold byteIdx; omega) (by omega)]
        have h2 : 8 ≤ i := by omega
        simp [hl, hi, h2]
      · have h3 : ¬ i - 8 + 8 < b := by omega
        simp [hl, hi, h3]

/-- SPEC LEMMA of `bf_set`: message bit `p` is value bit `p - offset` inside the field and unchanged outside
(R36, R74). -/
theorem bfSet_msgBit {M : List Byte} {o b : Nat} (h : Legal M.length o b) (v p : Nat) :
    msgBit (bfSet M o b v) p = if o ≤ p ∧ p < o + b then v.testBit (p - o) else msgBit M p := by
  obtain ⟨⟨h1, h16⟩, ha, hn⟩ := h
  have h16 : b ≤ 16 := h16
  have hmask : ∀ n, n ≤ 8 → maskOf n < 256 := by
    intro n hn8
    rw [maskOf_eq]
    have : 2 ^ n ≤ 2 ^ 8 := Nat.pow_le_pow_right (by decide) hn8
    omega
  have hshl : ∀ n s, n + s ≤ 8 → maskOf n <<< s < 256 := by
    intro n s hns
    rw [maskOf_eq, Nat.shiftLeft_eq, Nat.sub_mul, ← Nat.pow_add]
    have h2 : 2 ^ (n + s) ≤ 2 ^ 8 := Nat.pow_le_pow_right (by decide) hns
    have h3 : 0 < 2 ^ s := Nat.two_pow_pos s
    omega
  have hp8 : p % 8 < 8 := Nat.mod_lt _ (by decide)
  unfold bfSet fieldCase
  by_cases h8 : b ≤ 8
  · by_cases hs : bitShift o + b ≤ 8
    · simp only [h8, hs, if_true]
      by_cases hq : byteIdx o = p / 8
      · rw [msgBit, ← hq, readByte_writeByte_same (by unfold byteIdx; omega),
          mergeByte_getLsbD (hshl _ _ (by omega)) hp8, msgBit, ← hq, BitVec.testBit_toNat]
        simp only [Nat.testBit_shiftLeft, Nat.testBit_and, maskOf_testBit]
        unfold byteIdx at hq
        unfold bitShift at hs ⊢
        by_cases hin : o ≤ p ∧ p < o + b
        · have e1 : p % 8 - o % 8 = p - o := by omega
          have e2 : o % 8 ≤ p % 8 := by omega
          have e3 : p - o < b := by omega
          simp [hin, e1, e2, e3]
        · have e : ¬ (o % 8 ≤ p % 8 ∧ p % 8 - o % 8 < b) := by omega
          by_cases e2 : o % 8 ≤ p % 8
          · have e3 : ¬ p % 8 - o % 8 < b := fun hh => e ⟨e2, hh⟩
            simp [hin, e2, e3]
          · simp [hin, e2]
      · rw [msgBit, readByte_writeByte_other _ hq, ← msgBit]
        unfold byteIdx at hq
        unfold bitShift at hs
        rw [if_neg (by omega)]
    · simp only [h8, hs, if_true, if_false]
      have hlo : loBits o = 8 - bitShift o := rfl
      have hhi : hiBits o b = b - loBits o := rfl
      have hsh : bitShift o = o % 8 := rfl
      have hbi : byteIdx o = o / 8 := rfl
      have hsl : bitShift o < 8 := Nat.mod_lt _ (by decide)
      by_cases hq2 : byteIdx o + 1 = p / 8
      · rw [msgBit, ← hq2, readByte_writeByte_same (by rw [writeByte_length]; omega),
          mergeByte_getLsbD (hmask _ (by omega)) hp8, msgBit, ← hq2, BitVec.testBit_toNat]
        simp only [Nat.testBit_shiftRight, Nat.testBit_and, maskOf_testBit]
        by_cases hin : p < o + b
        · have e0 : o ≤ p := by omega
          have e1 : loBits o + p % 8 = p - o := by omega
          have e2 : p % 8 < hiBits o b := by omega
          simp [hin, e0, e1, e2]
        · have e2 : ¬ p % 8 < hiBits o b := by omega
          simp [hin, e2]
      · rw [msgBit, readByte_writeByte_other _ hq2]
        by_cases hq : byteIdx o = p / 8
        · rw [← hq, readByte_writeByte_same (by omega), mergeByte_getLsbD (hshl _ _ (by omega)) hp8, msgBit, ← hq,
            BitVec.testBit_toNat]
          simp only [Nat.testBit_shiftLeft, Nat.testBit_and, maskOf_testBit]
          by_cases hin : o ≤ p
          · have e0 : p < o + b := by omega
            have e1 : p % 8 - bitShift o = p - o := by omega
            have e2 : bitShift o ≤ p % 8 := by omega
            have e3 : p - o < loBits o := by omega
            simp [hin, e0, e1, e2, e3]
          · have e2 : ¬ bitShift o ≤ p % 8 := by omega
            simp [hin, e2]
        · rw [readByte_writeByte_other _ hq, ← msgBit, if_neg (by omega)]
  · have hz : o % 8 = 0 := ha (by omega)
    have hbi : byteIdx o = o / 8 := rfl
    simp only [h8, if_false]
    have hwl : wideLoMask b < 256 := Nat.lt_of_le_of_lt Nat.and_le_right (by decide)
    have hwh : wideHiMask b < 256 := Nat.lt_pow_two_of_testBit (n := 8) _ fun i hi => by
      rw [wideHiMask_testBit]; simp; omega
    by_cases hq2 : byteIdx o + 1 = p / 8
    · rw [msgBit, ← hq2, readByte_writeByte_same (by rw [writeByte_length]; omega), mergeByte_getLsbD hwh hp8, msgBit,
        ← hq2, BitVec.testBit_toNat]
      simp only [Nat.testBit_shiftRight, Nat.testBit_and, wideHiMask_testBit]
      by_cases hin : p < o + b
      · have e0 : o ≤ p := by omega
        have e1 : 8 + p % 8 = p - o := by omega
        have e2 : p % 8 + 8 < b := by omega
        simp [hin, e0, e1, e2]
      · have e2 : ¬ p % 8 + 8 < b := by omega
        simp [hin, e2]
    · rw [msgBit, readByte_writeByte_other _ hq2]
      by_cases hq : byteIdx o = p / 8
      · rw [← hq, readByte_writeByte_same (by omega), mergeByte_getLsbD hwl hp8]
        simp only [Nat.testBit_and, wideLoMask_testBit (show 8 < b by omega)]
        have e0 : o ≤ p ∧ p < o + b := by omega
        have e1 : p % 8 = p - o := by omega
        rw [if_pos e0, e1] at *
        have e3 : p - o < 8 := by omega
        simp [e3]
      · rw [readByte_writeByte_other _ hq, ← msgBit, if_neg (by omega)]

end Sys2Proof.Machine
end

