-- ==== Sys2Proof/Laws/Decode.lean ====
section
/-! SUPPORT. The fields of a packed command word (`30_encoding.md` R52), which the encoding claims rest on. -/

namespace Sys2Proof

section Fields

variable {op m bitsize offset wdata : Nat} (h1 : op < 16) (h2 : m < 2) (h3 : bitsize < 32) (h4 : offset < 2048)
  (h5 : wdata < 65536)

include h1 h2 h3 h4 h5

theorem packCmd_toNat : (packCmd op m bitsize offset wdata).toNat =
    op * 2 ^ 36 + m * 2 ^ 32 + bitsize * 2 ^ 27 + offset * 2 ^ 16 + wdata := by
  rw [packCmd, BitVec.toNat_ofNat, Nat.mod_eq_of_lt]
  omega

theorem packCmd_op : opField (packCmd op m bitsize offset wdata) = op := by
  rw [opField, cmdField, packCmd_toNat h1 h2 h3 h4 h5]
  omega

theorem packCmd_rsv : rsvField (packCmd op m bitsize offset wdata) = 0 := by
  rw [rsvField, cmdField, packCmd_toNat h1 h2 h3 h4 h5]
  omega

theorem packCmd_m : mField (packCmd op m bitsize offset wdata) = m := by
  rw [mField, cmdField, packCmd_toNat h1 h2 h3 h4 h5]
  omega

theorem packCmd_bitsize : bitsizeField (packCmd op m bitsize offset wdata) = bitsize := by
  rw [bitsizeField, cmdField, packCmd_toNat h1 h2 h3 h4 h5]
  omega

theorem packCmd_offset : offsetField (packCmd op m bitsize offset wdata) = offset := by
  rw [offsetField, cmdField, packCmd_toNat h1 h2 h3 h4 h5]
  omega

theorem packCmd_wdata : wdataField (packCmd op m bitsize offset wdata) = wdata := by
  rw [wdataField, cmdField, packCmd_toNat h1 h2 h3 h4 h5]
  omega

end Fields

theorem MsgSel.bit_lt (m : MsgSel) : m.bit < 2 := by cases m <;> decide

@[simp] theorem MsgSel.ofBit_bit (m : MsgSel) : MsgSel.ofBit m.bit = m := by cases m <;> rfl

theorem MsgSel.bit_ofBit {b : Nat} (h : b < 2) : (MsgSel.ofBit b).bit = b := by
  unfold MsgSel.ofBit
  split
  · simp [MsgSel.bit, *]
  · simp only [MsgSel.bit]
    omega

theorem cmdField_lt (w : CmdWord) (lo len : Nat) : cmdField w lo len < 2 ^ len := Nat.mod_lt _ (Nat.two_pow_pos len)

/-- A word is its fields, packed (R52). -/
theorem toNat_eq_fields (w : CmdWord) : w.toNat = opField w * 2 ^ 36 + rsvField w * 2 ^ 33 + mField w * 2 ^ 32 +
    bitsizeField w * 2 ^ 27 + offsetField w * 2 ^ 16 + wdataField w := by
  have := w.isLt
  unfold opField rsvField mField bitsizeField offsetField wdataField cmdField
  omega

/-- A field as the bit range `[lo + len - 1 : lo]` (R5). -/
theorem cmdField_eq_extract (w : CmdWord) (lo len : Nat) : cmdField w lo len = (w.extractLsb' lo len).toNat := by
  rw [BitVec.extractLsb'_toNat, Nat.shiftRight_eq_div_pow, cmdField]

/-- INVERSION of the decoder: what a decoded word's fields are (R54). -/
theorem decode_cases {w : CmdWord} {i : Instr} (h : decode w = .ok i) : rsvField w = 0 ∧
    ((opField w = 1 ∧ wdataField w = 0 ∧ i = .get (.ofBit (mField w)) (offsetField w) (bitsizeField w)) ∨
     (opField w = 2 ∧ i = .set (.ofBit (mField w)) (offsetField w) (bitsizeField w) (BitVec.ofNat 16 (wdataField w))) ∨
     (opField w = 3 ∧ bitsizeField w = 0 ∧ offsetField w = 0 ∧ wdataField w = 0 ∧ i = .encode (.ofBit (mField w))) ∨
     (opField w = 4 ∧ mField w = 0 ∧ bitsizeField w = 0 ∧ offsetField w = 0 ∧ wdataField w < 256 ∧
        i = .decode (BitVec.ofNat 8 (wdataField w)))) := by
  unfold decode at h
  split_ifs at h with h0 hr h1 h2 h3 h4 h5 h6
  · exact ⟨by omega, .inl ⟨h1, h2, by cases h; rfl⟩⟩
  · exact ⟨by omega, .inr (.inl ⟨h3, by cases h; rfl⟩)⟩
  · exact ⟨by omega, .inr (.inr (.inl ⟨h4, h5.1, h5.2.1, h5.2.2, by cases h; rfl⟩))⟩
  · exact ⟨by omega, .inr (.inr (.inr ⟨by omega, h6.1, h6.2.1, h6.2.2.1, h6.2.2.2, by cases h; rfl⟩))⟩

end Sys2Proof
end

