-- ==== Sys2Proof/Laws/Framing.lean ====
section
/-! SUPPORT. What the parser's and the encoder's operations can do, said once (`41_framing.md` R91 to R100), and the
facts about `exec` that every claim over sequences uses. -/

namespace Sys2Proof.Machine

/-- One more summed byte (R91): reduction modulo 256 commutes with addition. -/
theorem checksum_append (l : List Byte) (b : Byte) : checksum (l ++ [b]) = checksum l + b := by
  apply BitVec.eq_of_toNat_eq
  simp [checksum, BitVec.toNat_add]

theorem checksum_cons (b : Byte) (l : List Byte) : checksum (b :: l) = b + checksum l := by
  apply BitVec.eq_of_toNat_eq
  simp [checksum, BitVec.toNat_add]

@[simp] theorem encodeFrame_length (M : List Byte) : (encodeFrame M).length = M.length + 2 := by
  simp [encodeFrame]

/-- The cursor never wraps (R13). -/
theorem State.storeByte_cursor_toNat {s : State} (h : s.IsInstance) (hc : s.cursor.toNat < s.frameSize) (b : Byte) :
    (s.storeByte b).cursor.toNat = s.cursor.toNat + 1 := by
  obtain ⟨-, h253, -, -⟩ := h
  have h253 : s.N ≤ 253 := h253
  have hf : s.frameSize = s.N + 2 := rfl
  rw [State.storeByte_cursor, BitVec.toNat_add]
  change (s.cursor.toNat + 1) % 256 = _
  omega

/-- Storing a byte extends the accepted prefix of the frame by it (R14). -/
theorem State.storeByte_take {s : State} (hc : s.cursor.toNat < s.buf.length) (b : Byte) :
    (s.storeByte b).buf.take (s.cursor.toNat + 1) = s.buf.take s.cursor.toNat ++ [b] := by
  rw [State.storeByte_buf, writeByte, List.take_add_one, List.take_set_of_le (Nat.le_refl _)]
  simp [hc]

/-- `DECODE` answers a next state wherever the cursor is inside the buffer (R95). -/
theorem execDecode_next {s : State} (hc : s.pstate = .accumulating → s.cursor.toNat < s.frameSize) (b : Byte) :
    ∃ t, execDecode b s = .next t := by
  unfold execDecode
  split
  · exact ⟨_, rfl⟩
  · rename_i h
    simp [hc h]

/-- SPEC LEMMA of `DECODE`: the five transitions T1 to T5 of R94. -/
theorem execDecode_cases {s t : State} {b : Byte} (hi : s.IsInstance) (h : execDecode b s = .next t) :
    (s.pstate = .idle ∧ b = Config.marker ∧ t = (s.acceptMarker b).respond .notComplete) ∨
    (s.pstate = .idle ∧ b ≠ Config.marker ∧ t = { s with cursor := 0 }.respond (.error .framing)) ∨
    (s.pstate = .accumulating ∧ s.cursor.toNat + 1 < s.frameSize ∧ t = (s.storeByte b).respond .notComplete) ∨
    (s.pstate = .accumulating ∧ s.cursor.toNat + 1 = s.frameSize ∧ checksum (s.buf.take (s.N + 1)) = b ∧
      t = (s.storeByte b).deliver.enterIdle.respond .frameComplete) ∨
    (s.pstate = .accumulating ∧ s.cursor.toNat + 1 = s.frameSize ∧ checksum (s.buf.take (s.N + 1)) ≠ b ∧
      t = (s.storeByte b).enterIdle.respond (.error .checksum)) := by
  unfold execDecode at h
  split at h
  · rename_i hp
    cases h
    by_cases hb : b = Config.marker
    · exact .inl ⟨hp, hb, by simp [decodeIdle, hb]⟩
    · exact .inr (.inl ⟨hp, hb, by simp [decodeIdle, hb]⟩)
  · rename_i hp
    split at h
    · rename_i hc
      cases h
      have hcur := State.storeByte_cursor_toNat hi hc b
      have hf : s.frameSize = s.N + 2 := rfl
      by_cases hlt : s.cursor.toNat + 1 < s.frameSize
      · refine .inr (.inr (.inl ⟨hp, hlt, ?_⟩))
        rw [decodeAccumulating, if_pos (by rw [hcur]; exact hlt)]
      · have heq : s.cursor.toNat + 1 = s.frameSize := by omega
        have hN : s.cursor.toNat = s.N + 1 := by omega
        have hlen : s.buf.length = s.N + 2 := hi.2.2.2
        have htake : (s.storeByte b).buf.take (s.N + 1) = s.buf.take (s.N + 1) := by
          rw [State.storeByte_buf, writeByte, hN, List.take_set_of_le (Nat.le_refl _)]
        have hlast : readByte (s.storeByte b).buf (s.N + 1) = b := by
          rw [State.storeByte_buf, hN, readByte_writeByte_same (by omega)]
        have hclose : decodeAccumulating b s = closeFrame (s.storeByte b) := by
          rw [decodeAccumulating, if_neg (by rw [hcur]; exact hlt)]
        have hfs : (s.storeByte b).frameSize - 1 = s.N + 1 := rfl
        rw [hclose, closeFrame, hfs, htake, hlast]
        by_cases hsum : checksum (s.buf.take (s.N + 1)) = b
        · exact .inr (.inr (.inr (.inl ⟨hp, heq, hsum, by rw [if_pos hsum]⟩)))
        · exact .inr (.inr (.inr (.inr ⟨hp, heq, hsum, by rw [if_neg hsum]⟩)))
    · cases h

/-- SPEC LEMMA of `GET` (R75). -/
theorem execGet_eq (m : MsgSel) (o b : Nat) (s : State) : execGet m o b s =
    .next (s.respond (if Legal s.N o b then .value (bfGet (s.msg m) o b) else .faulted .preconditionError)) := by
  unfold execGet
  split <;> simp_all

/-- SPEC LEMMA of `SET` (R76). -/
theorem execSet_cases {m : MsgSel} {o b : Nat} {v : Half} {s t : State} (h : execSet m o b v s = .next t) :
    (Legal s.N o b ∧ t = (s.setMsg m (bfSet (s.msg m) o b v.toNat)).respond .done) ∨
    (¬ Legal s.N o b ∧ t = s.respond (.faulted .preconditionError)) := by
  unfold execSet at h
  cases h
  by_cases hl : Legal s.N o b
  · exact .inl ⟨hl, if_pos hl⟩
  · exact .inr ⟨hl, if_neg hl⟩

/-- Every operation keeps the instance: no length of a store changes, so `N` does not (R4). -/
theorem exec_keeps_instance {i : Instr} {s t : State} (hi : s.IsInstance) (h : exec i s = .next t) :
    t.IsInstance ∧ t.N = s.N := by
  obtain ⟨h1, h2, h3, h4⟩ := hi
  cases i with
  | get m o b =>
    rw [exec, execGet_eq] at h
    cases h
    exact ⟨⟨h1, h2, h3, h4⟩, rfl⟩
  | encode m =>
    cases h
    exact ⟨⟨h1, h2, h3, h4⟩, rfl⟩
  | set m o b v =>
    rcases execSet_cases h with ⟨-, rfl⟩ | ⟨-, rfl⟩
    · have hN : (s.setMsg m (bfSet (s.msg m) o b v.toNat)).N = s.N := State.setMsg_N _ _ _ (by simp)
      refine ⟨⟨?_, ?_, ?_, ?_⟩, hN⟩
      · rw [State.respond_N, hN]; exact h1
      · rw [State.respond_N, hN]; exact h2
      · rw [State.respond_N, hN, State.respond_tx, ← h3]
        cases m
        · rfl
        · exact bfSet_length _ _ _ _
      · rw [State.respond_frameSize, State.frameSize, hN, State.respond_buf, State.setMsg_buf]; exact h4
    · exact ⟨⟨h1, h2, h3, h4⟩, rfl⟩
  | decode b =>
    rcases execDecode_cases ⟨h1, h2, h3, h4⟩ h with ⟨-, -, rfl⟩ | ⟨-, -, rfl⟩ | ⟨-, -, rfl⟩ | ⟨-, -, -, rfl⟩ | ⟨-, -, -, rfl⟩
    · exact ⟨⟨h1, h2, h3, by simpa using h4⟩, rfl⟩
    · exact ⟨⟨h1, h2, h3, h4⟩, rfl⟩
    · exact ⟨⟨h1, h2, h3, by simpa using h4⟩, rfl⟩
    · have hN : (s.storeByte b).deliver.N = s.N := State.deliver_N _ (by simpa using h4)
      refine ⟨⟨?_, ?_, ?_, ?_⟩, hN⟩
      · exact hN ▸ h1
      · exact hN ▸ h2
      · exact h3.trans hN.symm
      · simp only [State.respond_buf, State.enterIdle_buf, State.deliver_buf, State.storeByte_buf, writeByte_length]
        exact h4.trans (congrArg (· + 2) hN.symm)
    · exact ⟨⟨h1, h2, h3, by simpa using h4⟩, rfl⟩

/-- Every operation gives exactly one response (R137). -/
theorem exec_one_response {i : Instr} {s t : State} (hi : s.IsInstance) (h : exec i s = .next t) :
    ∃ r, t.responses = s.responses ++ [r] := by
  cases i with
  | get m o b =>
    rw [exec, execGet_eq] at h
    cases h
    exact ⟨_, rfl⟩
  | encode m => cases h; exact ⟨_, rfl⟩
  | set m o b v =>
    rcases execSet_cases h with ⟨-, rfl⟩ | ⟨-, rfl⟩
    · exact ⟨.done, by simp⟩
    · exact ⟨_, rfl⟩
  | decode b =>
    rcases execDecode_cases hi h with ⟨-, -, rfl⟩ | ⟨-, -, rfl⟩ | ⟨-, -, rfl⟩ | ⟨-, -, -, rfl⟩ | ⟨-, -, -, rfl⟩ <;>
      exact ⟨_, rfl⟩

/-- A sequence run in two parts. -/
theorem execAll_append (xs ys : List Instr) {s t : State} (h : execAll xs s = .next t) :
    execAll (xs ++ ys) s = execAll ys t := by
  induction xs generalizing s with
  | nil => cases h; rfl
  | cons i is ih =>
    simp only [execAll, List.cons_append] at h ⊢
    split at h
    · exact ih h
    · cases h
    · cases h

end Sys2Proof.Machine
end

