-- ==== Sys2Proof/Laws/PerInstr.lean ====
section
/-! SUPPORT. Facts said of every operation, one lemma per constructor: the word an operation is encoded by carries
`op` and a zero `rsv` as its row of R53 and R54 says. -/

namespace Sys2Proof.Laws

/-- The operation code of R53. -/
def opCode : Instr → Nat
  | .get _ _ _ => 1
  | .set _ _ _ _ => 2
  | .encode _ => 3
  | .decode _ => 4

/-- A well-formed operation's word carries its operation code, and its reserved bits are 0. -/
def EncodeCarriesOp.Statement (i : Instr) : Prop :=
  i.WellFormed → opField (encode i) = opCode i ∧ rsvField (encode i) = 0

theorem EncodeCarriesOp.get (m : MsgSel) (o b : Nat) : EncodeCarriesOp.Statement (.get m o b) := fun h =>
  ⟨packCmd_op (by decide) m.bit_lt h.2 h.1 (by decide), packCmd_rsv (by decide) m.bit_lt h.2 h.1 (by decide)⟩

theorem EncodeCarriesOp.set (m : MsgSel) (o b : Nat) (v : Half) : EncodeCarriesOp.Statement (.set m o b v) := fun h =>
  ⟨packCmd_op (by decide) m.bit_lt h.2 h.1 v.isLt, packCmd_rsv (by decide) m.bit_lt h.2 h.1 v.isLt⟩

theorem EncodeCarriesOp.encode (m : MsgSel) : EncodeCarriesOp.Statement (.encode m) := fun _ =>
  ⟨packCmd_op (by decide) m.bit_lt (by decide) (by decide) (by decide),
    packCmd_rsv (by decide) m.bit_lt (by decide) (by decide) (by decide)⟩

theorem EncodeCarriesOp.decode (b : Byte) : EncodeCarriesOp.Statement (.decode b) := fun _ => by
  have hb := b.isLt
  exact ⟨packCmd_op (by decide) (by decide) (by decide) (by decide) (by omega),
    packCmd_rsv (by decide) (by decide) (by decide) (by decide) (by omega)⟩

end Sys2Proof.Laws
end

