-- ==== Sys2Proof/Tests/Slice0.lean ====
section
/-! SUPPORT. The model's own tests. Expected results come from `95_test_vectors.md` (the vector's name stands in each
comment) or from the rule named, by hand. Then, for every statement with hypotheses, a concrete state and operands that
meet them together. -/

namespace Sys2Proof.Tests

open Sys2Proof Sys2Proof.Machine

/-! ## WellFormed refuses ill-formed terms -/

theorem test_wellFormed_refuses_get_offset : ¬ (Instr.get .rx 2048 1).WellFormed := by decide
theorem test_wellFormed_refuses_get_bitsize : ¬ (Instr.get .rx 0 32).WellFormed := by decide
theorem test_wellFormed_refuses_set_offset : ¬ (Instr.set .tx 2048 1 0).WellFormed := by decide
theorem test_wellFormed_refuses_set_bitsize : ¬ (Instr.set .tx 0 32 0).WellFormed := by decide
theorem test_wellFormed_accepts_edges : (Instr.get .rx 2047 31).WellFormed ∧ (Instr.set .tx 2047 31 0xFFFF).WellFormed ∧
    (Instr.encode .tx).WellFormed ∧ (Instr.decode 0xFF).WellFormed := by decide

/-! ## Decoding: words written out bit by bit from R54 (`op rsv m bitsize offset wdata`) -/

theorem test_decode_get : Sys2Proof.decode 0b0001_000_0_01100_00000001000_0000000000000000#40 = .ok (.get .rx 8 12) := by
  decide
theorem test_decode_set : Sys2Proof.decode 0b0010_000_1_00100_00000000110_0000000000001111#40 = .ok (.set .tx 6 4 0xF) := by
  decide
theorem test_decode_encode : Sys2Proof.decode 0b0011_000_1_00000_00000000000_0000000000000000#40 = .ok (.encode .tx) := by
  decide
theorem test_decode_decode : Sys2Proof.decode 0b0100_000_0_00000_00000000000_0000000010101010#40 = .ok (.decode 0xAA) := by
  decide

/-- Vector X12's nearest legal word: the highest offset of the largest message. -/
theorem test_decode_get_far : Sys2Proof.decode 0x100FE70000 = .ok (.get .rx 2023 1) := by decide

/-- Vector B19: the word carries all 16 bits of the value. -/
theorem test_decode_set_value : Sys2Proof.decode 0x216008FABC = .ok (.set .tx 8 12 0xFABC) := by decide

/-- Vectors I1 to I8. -/
theorem test_decode_rejects : Sys2Proof.decode 0x0000000000 = .error .reservedOp ∧
    Sys2Proof.decode 0x5000000000 = .error .reservedOp ∧ Sys2Proof.decode 0xF000000000 = .error .reservedOp ∧
    Sys2Proof.decode 0x1200000000 = .error .reservedBits ∧ Sys2Proof.decode 0x1040000001 = .error .unusedField ∧
    Sys2Proof.decode 0x3108000000 = .error .unusedField ∧ Sys2Proof.decode 0x41000000AA = .error .unusedField ∧
    Sys2Proof.decode 0x40000001AA = .error .unusedField := by decide

/-- `95_test_vectors.md` S5, S7, G9: the words of these operations. -/
theorem test_encode_words : Sys2Proof.encode (.set .tx 6 4 0xF) = 0x212006000F ∧
    Sys2Proof.encode (.encode .tx) = 0x3100000000 ∧ Sys2Proof.encode (.decode 0xB0) = 0x40000000B0 ∧
    Sys2Proof.encode (.get .rx 13 5) = 0x10280D0000 := by decide

theorem test_decodeTableWord : decodeTableWord 40 0x1060080000 = some (.get .rx 8 12) ∧
    decodeTableWord 40 0x0000000000 = none ∧ decodeTableWord 48 0x1060080000 = none := by decide

/-- The opcode table's words run as the first operation after reset: each step answers a next state. -/
theorem test_fetch_word_runs_after_reset :
    (match step (State.reset.withFetchWord 40 0x40000000AA) with
      | .next t => decide (t.cursor = 1 ∧ t.pstate = .accumulating ∧ t.pending = [])
      | .fault _ => false
      | .refused _ => false) = true := by decide

/-! ## Small states -/

/-- `N = 2`, in `Idle`. -/
abbrev idle2 : State :=
  { pstate := .idle, cursor := 0, buf := [0, 0, 0, 0], rx := [0x77, 0x88], tx := [0x01, 0x02],
    pending := [], responses := [], draws := 1 }

/-- `N = 2`, `Accumulating`, one byte in. -/
abbrev acc2_1 : State := { idle2 with pstate := .accumulating, cursor := 1, buf := [0xAA, 0, 0, 0] }

/-- `N = 2`, `Accumulating`, the checksum byte due (vector F1 after `AA 11 22`). -/
abbrev acc2_3 : State := { idle2 with pstate := .accumulating, cursor := 3, buf := [0xAA, 0x11, 0x22, 0] }

/-- `N = 4` with the message of vectors G1 to G12 in `msg[0]`. -/
abbrev idle4 : State :=
  { pstate := .idle, cursor := 0, buf := [0, 0, 0, 0, 0, 0], rx := [0x34, 0x12, 0xCD, 0xAB], tx := [0, 0, 0, 0],
    pending := [], responses := [], draws := 1 }

/-- A field of the state after an outcome. -/
def after {α : Type} (f : State → α) : Host.Outcome State Fault Refusal → Option α
  | .next t => some (f t)
  | .fault _ => none
  | .refused _ => none

/-! ## One step each, from the vectors -/

/-- Vectors G4 (high byte masked) and G9 (straddle). -/
theorem test_get : after State.lastResponse (exec (.get .rx 8 12) idle4) =
    some (some ⟨.none, .complete, .none, 0x0D12, []⟩) ∧
    after State.lastResponse (exec (.get .rx 13 5) idle4) = some (some ⟨.none, .complete, .none, 0x0008, []⟩) := by decide

/-- Vectors X5, X6: misaligned wide access, access past the end. -/
theorem test_get_faults : after State.lastResponse (exec (.get .rx 1 16) idle4) =
    some (some ⟨.preconditionError, .error, .none, 0, []⟩) ∧
    after State.lastResponse (exec (.get .rx 25 8) idle4) =
    some (some ⟨.preconditionError, .error, .none, 0, []⟩) := by decide

/-- Vectors S5 (straddle), B20 (wide, high nibble of the second byte kept). -/
theorem test_set : after State.tx (exec (.set .tx 6 4 0xF) { idle2 with tx := [0, 0] }) = some [0xC0, 0x03] ∧
    after State.tx (exec (.set .tx 8 12 0) { idle4 with tx := [0xFF, 0xFF, 0xFF, 0xFF] }) =
      some [0xFF, 0x00, 0xF0, 0xFF] := by decide

/-- Vector X14: nothing is written, not even the first byte. -/
theorem test_set_fault_writes_nothing : after State.tx (exec (.set .tx 4 12 0xABC) idle2) = some [0x01, 0x02] := by decide

/-- Vectors S7 and E5 (the sum wraps). -/
theorem test_encode : after State.lastResponse (exec (.encode .tx) { idle4 with tx := [0, 1, 2, 3] }) =
    some (some ⟨.none, .complete, .none, 0, [0xAA, 0, 1, 2, 3, 0xB0]⟩) ∧
    after State.lastResponse (exec (.encode .tx) { idle2 with tx := [0xFF, 0xFF] }) =
    some (some ⟨.none, .complete, .none, 0, [0xAA, 0xFF, 0xFF, 0xA8]⟩) := by decide

/-- Vectors F1 and F3, last byte: the message arrives, or the old one is kept. -/
theorem test_decode_last : after State.rx (exec (.decode 0xDD) acc2_3) = some [0x11, 0x22] ∧
    after State.rx (exec (.decode 0xDC) acc2_3) = some [0x77, 0x88] ∧
    after State.lastResponse (exec (.decode 0xDC) acc2_3) = some (some ⟨.none, .error, .checksum, 0, []⟩) := by decide

/-- Vectors F5 (the marker inside a frame is data) and F13 (noise in `Idle`). -/
theorem test_decode_inside_and_noise : after State.buf (exec (.decode 0xAA) acc2_1) = some [0xAA, 0xAA, 0, 0] ∧
    after State.lastResponse (exec (.decode 0xA9) idle2) = some (some ⟨.none, .error, .framing, 0, []⟩) := by decide

/-- P4 step 11: the word of vector I7 does not feed its byte. -/
theorem test_illegal_word_feeds_nothing :
    after State.cursor (step { acc2_1 with pending := [.command 0x41000000AA] }) = some 1 ∧
    after State.lastResponse (step { acc2_1 with pending := [.command 0x41000000AA] }) =
      some (some ⟨.illegalCommand, .error, .none, 0, []⟩) := by decide

/-- R55, R12: the codes of a response and of the parser state. -/
theorem test_codes : FaultCode.illegalCommand.code = 2 ∧ Status.error.code = 2 ∧ ErrCause.checksum.code = 2 ∧
    Status.notComplete.code = 1 ∧ PState.accumulating.code = 1 := by decide

/-- R133: the cause as a function of the parser state. -/
theorem test_causeOf : causeOf .idle .error = .framing ∧ causeOf .accumulating .error = .checksum ∧
    causeOf .accumulating .complete = .none := by decide

/-- R59, R60: lines and their operations. -/
theorem test_assemble : assembleLine 4 "GET TX, 0x8, 0b1100 ; level".toList = some [.get .tx 8 12] ∧
    assembleLine 2 "CLR 1".toList = some [.set .tx 0 8 0, .set .tx 8 8 0] ∧
    assembleLine 2 "FEEDSEQ 0xAA, 17".toList = some [.decode 0xAA, .decode 17] ∧
    assembleLine 2 "GET 1 2 3".toList = none := by decide

/-- P3 with `FEED`: the Router hears a completed message and nothing of an error. -/
theorem test_feed : (feed 0xDD acc2_3).2 = some [0x11, 0x22] ∧ (feed 0xDC acc2_3).2 = none := by decide

/-! ## Witnesses: the hypotheses of the statements can be met together -/

theorem witness_DecodeOfEncodeIsTheOperation : (Instr.get .rx 2047 31).WellFormed ∧ (Instr.set .tx 0 0 0).WellFormed := by
  decide
theorem witness_EachOperationHasOneWord : Sys2Proof.decode 0x3100000000 = .ok (.encode .tx) := by decide

theorem witness_StepRunsTheDecodedOperation : ∃ (s : State) (w : CmdWord) (rest : List HostEvent) (i : Instr),
    s.IsInstance ∧ s.pending = .command w :: rest ∧ Sys2Proof.decode w = .ok i :=
  ⟨{ idle2 with pending := [.command 0x40000000AA, .reset] }, 0x40000000AA, [.reset], .decode 0xAA, by decide⟩

theorem witness_NothingPendingChangesNothing : acc2_1.IsInstance ∧ acc2_1.pending = [] := by decide

theorem witness_WordOfNoRowRaisesIllegalCommand : ∃ (s : State) (w : CmdWord) (rest : List HostEvent),
    s.IsInstance ∧ s.pending = .command w :: rest ∧
    ¬ rowGet.Matches w ∧ ¬ rowSet.Matches w ∧ ¬ rowEncode.Matches w ∧ ¬ rowDecode.Matches w :=
  ⟨{ acc2_1 with pending := [.command 0x40000001AA] }, 0x40000001AA, [], by decide⟩

/-- For `OneResponseWithChecksInOrder`, `EveryCommandIsAnswered` and `FaultsChangeNoState`, a word for each clause: of no
row, an illegal access, a `DECODE`. -/
theorem witness_commands_in_invariant_states :
    ({ acc2_3 with pending := [.command 0x5000000000] } : State).Inv ∧
    ({ acc2_3 with pending := [.command 0x1100000000] } : State).Inv ∧
    ({ acc2_3 with pending := [.command 0x40000000DD] } : State).Inv ∧
    ¬ rowGet.Matches 0x5000000000 ∧ ¬ rowSet.Matches 0x5000000000 ∧ ¬ rowEncode.Matches 0x5000000000 ∧
    ¬ rowDecode.Matches 0x5000000000 ∧ rowGet.Matches 0x1100000000 ∧ ¬ Legal 2 0 0 ∧ rowDecode.Matches 0x40000000DD := by
  decide

theorem witness_FaultsChangeNoState : ∃ t, step { acc2_3 with pending := [.command 0x1100000000] } = .next t ∧
    t.lastResponse = some ⟨.preconditionError, .error, .none, 0, []⟩ := ⟨_, rfl, by decide⟩

theorem witness_RunOfWordsIsTheSequence : idle2.IsInstance ∧
    ∀ i ∈ [Instr.decode 0xAA, .get .rx 0 8, .encode .tx, .set .tx 0 8 1], i.WellFormed :=
  ⟨by decide, by simp [Instr.WellFormed]⟩

theorem witness_NoInstanceNoStep : ({ idle2 with rx := [] } : State).N = 0 ∧
    253 < ({ idle2 with rx := List.replicate 254 0 } : State).N := by
  refine ⟨by decide, ?_⟩
  show 253 < (List.replicate 254 (0 : Byte)).length
  rw [List.length_replicate]
  decide

theorem witness_ResetSatisfiesTheInvariants : (1 : Nat) ≤ 1 ∧ (1 : Nat) ≤ 253 ∧ (1 : Nat) ≤ 253 ∧ (253 : Nat) ≤ 253 := by
  decide

theorem witness_StepKeepsTheInvariants : ({ acc2_3 with pending := [.command 0x40000000DD] } : State).Inv ∧
    ∃ t, step { acc2_3 with pending := [.command 0x40000000DD] } = .next t := ⟨by decide, _, rfl⟩

theorem witness_StepNeverStops : ({ idle2 with pending := [.reset] } : State).Inv ∧ acc2_1.Inv := by decide

theorem witness_StepKeepsThePayloadSize : ({ idle2 with pending := [.reset] } : State).IsInstance ∧
    ∃ t, step { idle2 with pending := [.reset] } = .next t := ⟨by decide, _, rfl⟩

theorem witness_ResetAbandonsTheFrame : ({ acc2_3 with pending := [.reset] } : State).IsInstance ∧
    ({ acc2_3 with pending := [.reset] } : State).pending = .reset :: [] := by decide

/-- Lowest and highest cursor of a frame in flight. -/
theorem witness_CursorNeverWraps : acc2_1.Inv ∧ acc2_3.Inv ∧ acc2_1.pstate = .accumulating ∧
    acc2_3.pstate = .accumulating := by decide

/-- For `GetReturnsTheField` and `SetReplacesTheField`, both clauses at the end of the message, and the three cases. -/
theorem witness_Get_and_Set : idle4.IsInstance ∧ Legal idle4.N 31 1 ∧ Legal idle4.N 25 7 ∧ ¬ Legal idle4.N 25 8 ∧
    Legal idle4.N 16 16 ∧ ¬ Legal idle4.N 24 16 ∧ Legal idle4.N 6 4 ∧
    (0x1040000001 : CmdWord).extractLsb' 36 4 = 1 ∧ (0x1040000001 : CmdWord).extractLsb' 0 16 ≠ 0 ∧
    (0x1200000000 : CmdWord).extractLsb' 36 4 = 1 ∧ (0x1200000000 : CmdWord).extractLsb' 33 3 ≠ 0 ∧
    (0x2200000000 : CmdWord).extractLsb' 36 4 = 2 ∧ (0x2200000000 : CmdWord).extractLsb' 33 3 ≠ 0 := by decide

theorem witness_IllegalOperandsRaisePreconditionError : ∃ (s : State) (w : CmdWord) (rest : List HostEvent),
    s.IsInstance ∧ s.pending = .command w :: rest ∧ (rowGet.Matches w ∨ rowSet.Matches w) ∧
    ¬ Legal s.N (w.extractLsb' 16 11).toNat (w.extractLsb' 27 5).toNat :=
  ⟨{ idle2 with pending := [.command 0x2160040ABC] }, 0x2160040ABC, [], by decide⟩

theorem witness_SetFrame : idle4.IsInstance ∧ (∃ t, exec (.set .tx 6 4 0xF) idle4 = .next t) ∧
    (2 ≠ byteIdx 6 ∧ 2 ≠ byteIdx 6 + 1) ∧ (fieldCase 0 8 = .one ∧ 1 ≠ byteIdx 0) ∧ ¬ (6 ≤ 5 ∧ 5 < 6 + 4) ∧
    ¬ (6 ≤ 10 ∧ 10 < 6 + 4) := ⟨by decide, ⟨_, rfl⟩, by decide⟩

theorem witness_GetAndEncodeOnlyAnswer : (∃ m o b, Instr.get .rx 0 0 = .get m o b) ∧ ∃ m, Instr.encode .tx = .encode m :=
  ⟨⟨_, _, _, rfl⟩, ⟨_, rfl⟩⟩

theorem witness_FieldIsASliceOfTheMessage : Legal [(0x34 : Byte), 0x12].length 0 16 ∧
    Legal [(0x34 : Byte), 0x12].length 15 1 := by decide

/-- Neighbouring fields that share a byte, whole bytes, byte pairs. -/
theorem witness_FieldLaws : Legal [(0x34 : Byte), 0x12].length 0 4 ∧ Legal [(0x34 : Byte), 0x12].length 4 8 ∧
    (0 + 4 ≤ 4 ∨ 4 + 8 ≤ 0) ∧ 1 < [(0x34 : Byte), 0x12].length ∧ 0 + 1 < [(0x34 : Byte), 0x12].length := by decide

theorem witness_FieldCasesAreExact : Legal 1 0 8 ∧ Legal 2 7 2 ∧ Legal 2 0 9 ∧ fieldCase 0 8 = .one ∧
    fieldCase 7 2 = .straddle ∧ fieldCase 0 9 = .wide := by decide

theorem witness_EncodeEmitsTheFrame : idle2.IsInstance ∧ 1 ≤ 1 ∧ 1 ≤ idle2.N ∧ 2 ≤ idle2.N ∧
    (0x3108000000 : CmdWord).extractLsb' 36 4 = 3 ∧ (0x3108000000 : CmdWord).extractLsb' 0 32 ≠ 0 := by decide

theorem witness_ChecksumProperties : 0 < [(0x11 : Byte)].length ∧ (0x12 : Byte) ≠ readByte [0x11] 0 ∧
    [(0x11 : Byte)].length ≤ 254 ∧ [(1 : Byte), 2].Perm [2, 1] := ⟨by decide, by decide, by decide, by decide⟩

theorem witness_DecodeMarkerInIdle : idle2.pstate = .idle := by decide

theorem witness_DecodeNonMarkerInIdle : idle2.Inv ∧ idle2.pstate = .idle ∧ (0xAB : Byte) ≠ 0xAA := by decide

/-- First byte after the marker, and the last payload byte. -/
theorem witness_DecodeInsideAFrame : acc2_1.IsInstance ∧ acc2_1.pstate = .accumulating ∧
    acc2_1.cursor.toNat + 1 < acc2_1.N + 2 ∧ ({ acc2_1 with cursor := 2 } : State).IsInstance ∧
    ({ acc2_1 with cursor := 2 } : State).cursor.toNat + 1 < acc2_1.N + 2 := by decide

theorem witness_DecodeCompletesAValidFrame : acc2_3.IsInstance ∧ acc2_3.pstate = .accumulating ∧
    acc2_3.cursor.toNat + 1 = acc2_3.N + 2 ∧
    (0xDD : Byte) = BitVec.ofNat 8 (((acc2_3.buf.take (acc2_3.N + 1)).map BitVec.toNat).sum % 256) := by decide

theorem witness_DecodeRejectsABadChecksum : acc2_3.IsInstance ∧ acc2_3.pstate = .accumulating ∧
    acc2_3.cursor.toNat + 1 = acc2_3.N + 2 ∧
    (0xDC : Byte) ≠ BitVec.ofNat 8 (((acc2_3.buf.take (acc2_3.N + 1)).map BitVec.toNat).sum % 256) := by decide

/-- One state for each row of the table: `Idle` (T1, T2), inside a frame (T3), the last byte due (T4, T5). -/
theorem witness_DecodeTakesOneOfTheFiveTransitions : idle2.Inv ∧ acc2_1.Inv ∧ acc2_1.cursor.toNat + 1 < acc2_1.N + 2 ∧
    acc2_3.Inv ∧ acc2_3.cursor.toNat + 1 = acc2_3.N + 2 ∧ checksum (acc2_3.buf.take (acc2_3.N + 1)) = 0xDD := by decide

/-- For `DecodeFrame` and `ErrorCauseFollowsTheParserState`: a next state from `Idle` and from `Accumulating`. -/
theorem witness_DecodeFrame : idle2.IsInstance ∧ (∃ t, exec (.decode 0xAA) idle2 = .next t) ∧ acc2_3.IsInstance ∧
    ∃ t, exec (.decode 0xDD) acc2_3 = .next t := ⟨by decide, ⟨_, rfl⟩, by decide, ⟨_, rfl⟩⟩

theorem witness_ErrorReturnsToIdle : acc2_3.Inv ∧ ∃ t r, exec (.decode 0xDC) acc2_3 = .next t ∧
    t.responses = acc2_3.responses ++ [r] ∧ r.status = .error :=
  ⟨by decide, _, ⟨.none, .error, .checksum, 0, []⟩, rfl, by decide, rfl⟩

/-- For the statements about bytes fed from `Idle`: noise, a frame body, a message of `N` bytes, a wrong byte. -/
theorem witness_bytes_from_idle : idle2.Inv ∧ idle2.pstate = .idle ∧ (∀ b ∈ [(0xA8 : Byte), 0xA9], b ≠ 0xAA) ∧
    [(0x11 : Byte)].length ≤ idle2.N ∧ [(0x11 : Byte), 0x22].length = idle2.N ∧
    (0xDC : Byte) ≠ checksum [0xAA, 0x11, 0x22] ∧ (0x23 : Byte) ≠ readByte [0x11, 0x22] 1 ∧
    [(0x11 : Byte), 0x22].Perm [0x22, 0x11] ∧ [(0xAA : Byte), 1, 2].length ≤ idle2.N + 1 ∧
    (∀ M ∈ [[(0x11 : Byte), 0x22], [0xAA, 0x01]], M.length = idle2.N) := by decide

theorem witness_AFrameInFlightAlwaysEnds : acc2_1.Inv ∧ acc2_1.pstate = .accumulating ∧
    [(0x11 : Byte), 0x22, 0xDD].length + acc2_1.cursor.toNat = acc2_1.N + 2 := by decide

theorem witness_AStalledFrameWaits : acc2_1.Inv ∧ (∀ i ∈ [Instr.get .rx 0 16, .set .rx 0 8 0xFF, .encode .rx],
    isDecode i = false) := by decide

theorem witness_ParserIgnoresOtherOperations : acc2_1.Inv := by decide

theorem witness_StaleBufferBytesAreUnobservable : acc2_1.Inv ∧ acc2_1.SameButStale { acc2_1 with buf := [0xAA, 1, 2, 3] } ∧
    idle2.Inv ∧ idle2.SameButStale { idle2 with buf := [9, 9, 9, 9] } := by decide

theorem witness_ResponsesAreNotSticky : idle2.IsInstance ∧
    ∃ t, execAll [.decode 0xAA, .get .rx 0 16] idle2 = .next t := ⟨by decide, _, rfl⟩

theorem witness_RunningChecksumIsEquivalent : acc2_3.Inv ∧ RunningSumAgrees acc2_3 0xDD := by decide

theorem witness_FeedCallsTheRouterOnComplete : acc2_3.Inv := by decide

theorem witness_SendHandsOverTheFrame : idle2.IsInstance := by decide

theorem witness_PseudoOperationsDoWhatTheySay : idle2.IsInstance ∧ 0 < idle2.N ∧ 1 < idle2.N := by decide

theorem witness_AssemblerGivesWellFormedOperations : (2 : Nat) ≤ 253 ∧
    assembleLine 2 "SET 0, 2047, 31, 65535".toList = some [.set .rx 2047 31 65535] := by decide

end Sys2Proof.Tests
end

section
/-! What a step does with each host event, the round trip of the encoder, and that no operation looks at the host's list
of events (`00_scope.md` R9, `20_memory.md` R40, `30_encoding.md` R54, log entry 3). -/

namespace Sys2Proof

/-- The decoder undoes the encoder on every well-formed operation (R54): each operand is in range of its field, so each
field of the packed word is that operand. -/
theorem decode_encode {i : Instr} (h : i.WellFormed) : decode (encode i) = .ok i := by
  have hm := MsgSel.bit_lt
  have hv : ∀ v : Half, v.toNat < 65536 := fun v => v.isLt
  have hb : ∀ b : Byte, b.toNat < 256 ∧ b.toNat < 65536 := fun b => ⟨b.isLt, Nat.lt_trans b.isLt (by decide)⟩
  cases i with
  | get | set =>
    obtain ⟨ho, hs⟩ := h
    simp [encode, decode, packCmd_op, packCmd_rsv, packCmd_m, packCmd_bitsize, packCmd_offset, packCmd_wdata, *]
  | encode | decode =>
    simp [encode, decode, packCmd_op, packCmd_rsv, packCmd_m, packCmd_bitsize, packCmd_offset, packCmd_wdata, *]

end Sys2Proof

namespace Sys2Proof.Machine

/-! ## The step, one equation per host event -/

section Step

variable {s t : State} {w : CmdWord} {rest : List HostEvent}

theorem issue_of_decode_ok {i : Instr} (h : decode w = .ok i) (s : State) : issue w s = exec i s := by
  rw [issue, h]

theorem issue_of_decode_error {r : Reject} (h : decode w = .error r) (s : State) :
    issue w s = .next (s.raise .illegalCommand) := by
  rw [issue, h]

theorem step_of_not_isInstance (h : ¬ s.IsInstance) : step s = .refused .noSuchInstance := if_neg h

theorem step_of_pending_nil (hi : s.IsInstance) (hp : s.pending = []) : step s = .next s := by
  rw [step, if_pos hi, hp]

theorem step_of_pending_reset (hi : s.IsInstance) (hp : s.pending = .reset :: rest) :
    step s = .next { s with pending := rest }.applyReset := by
  rw [step, if_pos hi, hp]

theorem step_of_pending_command (hi : s.IsInstance) (hp : s.pending = .command w :: rest) :
    step s = issue w { s with pending := rest } := by
  rw [step, if_pos hi, hp]

/-- INVERSION of the step: nothing is presented, a reset, an operation, or a word of no row. -/
theorem step_cases (hi : s.IsInstance) (h : step s = .next t) :
    (s.pending = [] ∧ t = s) ∨
    (∃ rest, s.pending = .reset :: rest ∧ t = { s with pending := rest }.applyReset) ∨
    (∃ w rest i, s.pending = .command w :: rest ∧ decode w = .ok i ∧ exec i { s with pending := rest } = .next t) ∨
    (∃ w rest r, s.pending = .command w :: rest ∧ decode w = .error r ∧
      t = { s with pending := rest }.raise .illegalCommand) := by
  match hp : s.pending with
  | [] =>
    rw [step_of_pending_nil hi hp] at h
    cases h
    exact .inl ⟨rfl, rfl⟩
  | .reset :: rest =>
    rw [step_of_pending_reset hi hp] at h
    cases h
    exact .inr (.inl ⟨rest, rfl, rfl⟩)
  | .command w :: rest =>
    rw [step_of_pending_command hi hp] at h
    match hd : decode w with
    | .ok i =>
      rw [issue_of_decode_ok hd] at h
      exact .inr (.inr (.inl ⟨w, rest, i, rfl, hd, h⟩))
    | .error r =>
      rw [issue_of_decode_error hd] at h
      cases h
      exact .inr (.inr (.inr ⟨w, rest, r, rfl, hd, rfl⟩))

end Step

/-- A reset leaves every store at its size (R150). -/
theorem State.IsInstance.applyReset {s : State} (hi : s.IsInstance) : s.applyReset.IsInstance := by
  obtain ⟨h1, h253, -, -⟩ := hi
  have hN := s.applyReset_N
  exact ⟨hN ▸ h1, hN ▸ h253, s.applyReset_tx_length.trans hN.symm,
    s.applyReset_buf_length.trans (congrArg (· + 2) hN.symm)⟩

/-! ## No operation looks at the host's list -/

section WithPending

variable (s : State) (l : List HostEvent)

@[simp] theorem State.withPending_msg (m : MsgSel) : ({ s with pending := l } : State).msg m = s.msg m := by
  cases m <;> rfl

theorem State.withPending_setMsg (m : MsgSel) (M : List Byte) :
    ({ s with pending := l } : State).setMsg m M = { s.setMsg m M with pending := l } := by
  cases m <;> rfl

theorem decodeIdle_withPending (b : Byte) :
    decodeIdle b { s with pending := l } = { decodeIdle b s with pending := l } := by
  unfold decodeIdle
  split <;> rfl

theorem closeFrame_withPending : closeFrame { s with pending := l } = { closeFrame s with pending := l } := by
  by_cases h : checksum (s.buf.take (s.frameSize - 1)) = readByte s.buf (s.frameSize - 1) <;>
    simp only [closeFrame, State.withPending_frameSize, h, if_true, if_false] <;> rfl

theorem decodeAccumulating_withPending (b : Byte) :
    decodeAccumulating b { s with pending := l } = { decodeAccumulating b s with pending := l } := by
  by_cases h : (s.cursor + 1).toNat < s.frameSize <;>
    simp only [decodeAccumulating, State.storeByte_cursor, State.withPending_frameSize, h, if_true, if_false]
  · rfl
  · exact closeFrame_withPending (s.storeByte b) l

end WithPending

/-- An outcome with the host's list of its next state, where there is one, replaced by `l`. -/
def outcomeWithPending (l : List HostEvent) :
    Host.Outcome State Fault Refusal → Host.Outcome State Fault Refusal
  | .next t => .next { t with pending := l }
  | .fault r => .fault r
  | .refused r => .refused r

/-- The list of what the host does next has no influence on an operation, which leaves it as it is (log entry 3). -/
theorem exec_withPending (i : Instr) (s : State) (l : List HostEvent) :
    exec i { s with pending := l } = outcomeWithPending l (exec i s) := by
  cases i with
  | get m o b =>
    simp only [exec, execGet_eq, State.withPending_N, State.withPending_msg]
    rfl
  | set m o b v =>
    simp only [exec, execSet, State.withPending_N, State.withPending_msg, State.withPending_setMsg]
    split <;> rfl
  | encode m =>
    simp only [exec, execEncode, State.withPending_msg]
    rfl
  | decode b =>
    simp only [exec, execDecode, State.withPending_frameSize, decodeIdle_withPending, decodeAccumulating_withPending]
    cases s.pstate with
    | idle => rfl
    | accumulating => by_cases hc : s.cursor.toNat < s.frameSize <;> simp only [hc, if_true, if_false] <;> rfl

/-! ## Runs over presented words -/

/-- The host's events that present the words of a list of operations. -/
def wordsOf (ops : List Instr) : List HostEvent := ops.map fun i => .command (encode i)

/-- A step over the word of a well-formed operation is the operation's meaning, with the word taken (R9, R40). -/
theorem step_wordsOf_cons {i : Instr} {s : State} (hi : s.IsInstance) (hw : i.WellFormed) (is : List Instr)
    (rest : List HostEvent) : step { s with pending := wordsOf (i :: is) ++ rest } =
      outcomeWithPending (wordsOf is ++ rest) (exec i s) := by
  have hi' := (State.withPending_isInstance s (wordsOf (i :: is) ++ rest)).2 hi
  rw [step_of_pending_command hi' rfl, issue_of_decode_ok (decode_encode hw)]
  exact exec_withPending i s _

/-- A run over the words of well-formed operations is the sequence of their meanings. -/
theorem run_wordsOf_eq_execAll (ops : List Instr) {s : State} (rest : List HostEvent) (hi : s.IsInstance)
    (hw : ∀ i ∈ ops, i.WellFormed) :
    Host.Core.run core ops.length { s with pending := wordsOf ops ++ rest } = execAll ops { s with pending := rest } := by
  induction ops generalizing s with
  | nil => rfl
  | cons i is ih =>
    obtain ⟨hwi, hwis⟩ := List.forall_mem_cons.1 hw
    have hstep : core.step { s with pending := wordsOf (i :: is) ++ rest } =
        outcomeWithPending (wordsOf is ++ rest) (exec i s) := step_wordsOf_cons hi hwi is rest
    simp only [List.length_cons, Host.Core.run, execAll, exec_withPending, hstep]
    cases hx : exec i s with
    | next t => exact ih (exec_keeps_instance hi hx).1 hwis
    | fault r => rfl
    | refused r => rfl

/-! ## The obligations -/

/-- Settles O10, by induction on the list of operations. -/
theorem runOfWordsIsTheSequence : Obligations.RunOfWordsIsTheSequence :=
  fun ops _ rest hi hw => run_wordsOf_eq_execAll ops rest hi hw

/-- Settles O16, by the cases of the step. -/
theorem stepKeepsThePayloadSize : Obligations.StepKeepsThePayloadSize := by
  intro s t hi h
  rcases step_cases hi h with ⟨-, rfl⟩ | ⟨rest, -, rfl⟩ | ⟨w, rest, i, -, -, hx⟩ | ⟨w, rest, r, -, -, rfl⟩
  · exact ⟨rfl, hi⟩
  · exact ⟨State.applyReset_N _, State.IsInstance.applyReset hi⟩
  · exact (exec_keeps_instance ((State.withPending_isInstance s rest).2 hi) hx).symm
  · exact ⟨rfl, hi⟩

/-- Settles O5, by the equation of the step for a command. -/
theorem stepRunsTheDecodedOperation : Obligations.StepRunsTheDecodedOperation := by
  intro s w rest i hi hp hd
  rw [step_of_pending_command hi hp, issue_of_decode_ok hd]

/-- Settles O6, by the equation of the step for an empty list. -/
theorem nothingPendingChangesNothing : Obligations.NothingPendingChangesNothing :=
  fun _ => step_of_pending_nil

/-- Settles O11: `IsInstance` bounds the payload size to 1 to 253. -/
theorem noInstanceNoStep : Obligations.NoInstanceNoStep := by
  intro s hN
  apply step_of_not_isInstance
  rintro ⟨h1, h253, -, -⟩
  have h253 : s.N ≤ 253 := h253
  omega

end Sys2Proof.Machine
end

section
/-! The invariants of R15 hold at reset, every step keeps them, and under them no step stops; what each operation reads
and writes, so that two runs can be compared (`10_state.md` R11 to R21). -/

namespace Sys2Proof.Machine

/-! ## The invariants -/

section Inv

variable {s : State}

/-- A block in `Idle` with cursor 0 has the invariants: those about a frame say nothing there. -/
theorem State.Inv.of_idle (hi : s.IsInstance) (hp : s.pstate = .idle) (hc : s.cursor = 0) : s.Inv := by
  have hna : s.pstate ≠ .accumulating := by simp [hp]
  exact ⟨hi, fun _ => hc, fun ha => absurd ha hna, fun ha => absurd ha hna⟩

/-- A block inside a frame has the invariants where the cursor is in range and the marker stands first. -/
theorem State.Inv.of_accumulating (hi : s.IsInstance) (hp : s.pstate = .accumulating) (h1 : 1 ≤ s.cursor.toNat)
    (hN : s.cursor.toNat ≤ s.N + 1) (hm : readByte s.buf 0 = Config.marker) : s.Inv :=
  ⟨hi, fun hidle => by simp [hp] at hidle, fun _ => ⟨h1, hN⟩, fun _ => hm⟩

theorem State.Inv.isInstance (h : s.Inv) : s.IsInstance := h.1

/-- Inside a frame the cursor is an index of the buffer (R15 item 2). -/
theorem State.Inv.cursor_lt (h : s.Inv) (hp : s.pstate = .accumulating) : s.cursor.toNat < s.frameSize := by
  obtain ⟨-, -, hcur, -⟩ := h
  exact Nat.lt_succ_of_le (hcur hp).2

@[simp] theorem State.fresh_N (n draw : Nat) : (State.fresh n draw).N = n := unspecified_length _ _ _ _

theorem State.fresh_isInstance {n : Nat} (h1 : 1 ≤ n) (h253 : n ≤ 253) (draw : Nat) :
    (State.fresh n draw).IsInstance := by
  have htx : (State.fresh n draw).tx.length = n := unspecified_length _ _ _ _
  have hbuf : (State.fresh n draw).buf.length = n + 2 := unspecified_length _ _ _ _
  simp only [State.IsInstance, State.frameSize, State.fresh_N]
  exact ⟨h1, h253, htx, hbuf⟩

theorem State.fresh_inv {n : Nat} (h1 : 1 ≤ n) (h253 : n ≤ 253) (draw : Nat) : (State.fresh n draw).Inv :=
  .of_idle (State.fresh_isInstance h1 h253 draw) rfl rfl

end Inv

/-! ## DECODE as a relation -/

/-- The five rows of the transition table of R94: what `DECODE b` can make of a state. -/
inductive DecodeRow (b : Byte) (s : State) : State → Prop
  /-- T1 (R96) -/
  | start (hp : s.pstate = .idle) (hb : b = Config.marker) : DecodeRow b s ((s.acceptMarker b).respond .notComplete)
  /-- T2 (R97) -/
  | noise (hp : s.pstate = .idle) (hb : b ≠ Config.marker) :
      DecodeRow b s ({ s with cursor := 0 }.respond (.error .framing))
  /-- T3 (R98) -/
  | inside (hp : s.pstate = .accumulating) (hc : s.cursor.toNat + 1 < s.frameSize) :
      DecodeRow b s ((s.storeByte b).respond .notComplete)
  /-- T4 (R99) -/
  | complete (hp : s.pstate = .accumulating) (hc : s.cursor.toNat + 1 = s.frameSize)
      (hsum : checksum (s.buf.take (s.N + 1)) = b) :
      DecodeRow b s ((s.storeByte b).deliver.enterIdle.respond .frameComplete)
  /-- T5 (R100) -/
  | badSum (hp : s.pstate = .accumulating) (hc : s.cursor.toNat + 1 = s.frameSize)
      (hsum : checksum (s.buf.take (s.N + 1)) ≠ b) : DecodeRow b s ((s.storeByte b).enterIdle.respond (.error .checksum))

section DecodeRow

variable {s t : State} {b : Byte}

/-- What `DECODE` answers is what a row of R94 allows. -/
theorem DecodeRow.of_exec (hi : s.IsInstance) (h : exec (.decode b) s = .next t) : DecodeRow b s t := by
  rcases execDecode_cases hi h with ⟨hp, hb, rfl⟩ | ⟨hp, hb, rfl⟩ | ⟨hp, hc, rfl⟩ | ⟨hp, hc, hsum, rfl⟩ |
    ⟨hp, hc, hsum, rfl⟩
  · exact .start hp hb
  · exact .noise hp hb
  · exact .inside hp hc
  · exact .complete hp hc hsum
  · exact .badSum hp hc hsum

theorem DecodeRow.cursor_lt (h : DecodeRow b s t) (hp : s.pstate = .accumulating) : s.cursor.toNat < s.frameSize := by
  cases h with
  | start hp' | noise hp' => simp [hp] at hp'
  | inside | complete | badSum => omega

/-- The rows exclude each other, so the answer of `DECODE` is the one of the row that applies. -/
theorem DecodeRow.exec_eq (hi : s.IsInstance) (h : DecodeRow b s t) : exec (.decode b) s = .next t := by
  obtain ⟨u, hu⟩ := execDecode_next h.cursor_lt b
  have hrow := execDecode_cases hi hu
  suffices hut : u = t from hut ▸ hu
  cases h with
  | start hp hb => simpa [hp, hb] using hrow
  | noise hp hb => simpa [hp, hb] using hrow
  | inside hp hc => simpa [hp, hc, hc.ne] using hrow
  | complete hp hc hsum => simpa [hp, hc, hsum] using hrow
  | badSum hp hc hsum => simpa [hp, hc, hsum] using hrow

end DecodeRow

/-! ## The other operations -/

theorem Instr.isDecode_or_not (i : Instr) : (∃ b, i = .decode b) ∨ isDecode i = false := by
  cases i with
  | decode b => exact .inl ⟨b, rfl⟩
  | get | set | encode => exact .inr rfl

section NotDecode

variable {s s' : State} (hrx : s'.rx = s.rx) (htx : s'.tx = s.tx)

include hrx in
theorem State.N_eq_of_rx : s'.N = s.N := congrArg List.length hrx

include hrx htx in
theorem State.msg_eq_of_registers (m : MsgSel) : s'.msg m = s.msg m := by
  cases m
  · exact hrx
  · exact htx

end NotDecode

/-- SPEC LEMMA of the operations that are no `DECODE`: they read and write the message registers only. What they write
and answer is the same in every state with the same registers (R12, R17). -/
theorem exec_of_not_decode {i : Instr} (hn : isDecode i = false) (s : State) : ∃ R T r, ∀ s' : State,
    s'.rx = s.rx → s'.tx = s.tx → exec i s' = .next ({ s' with rx := R, tx := T }.respond r) := by
  cases i with
  | decode b => cases hn
  | get m o b =>
    refine ⟨s.rx, s.tx, if Legal s.N o b then .value (bfGet (s.msg m) o b) else .faulted .preconditionError,
      fun s' hrx htx => ?_⟩
    rw [exec, execGet_eq, State.N_eq_of_rx hrx, State.msg_eq_of_registers hrx htx, ← hrx, ← htx]
  | encode m =>
    refine ⟨s.rx, s.tx, .emitted (encodeFrame (s.msg m)), fun s' hrx htx => ?_⟩
    rw [exec, execEncode, State.msg_eq_of_registers hrx htx, ← hrx, ← htx]
  | set m o b v =>
    by_cases hl : Legal s.N o b
    · refine ⟨(s.setMsg m (bfSet (s.msg m) o b v.toNat)).rx, (s.setMsg m (bfSet (s.msg m) o b v.toNat)).tx, .done,
        fun s' hrx htx => ?_⟩
      rw [exec, execSet, State.N_eq_of_rx hrx, if_pos hl, State.msg_eq_of_registers hrx htx]
      cases m <;> simp [State.setMsg, ← hrx, ← htx]
    · refine ⟨s.rx, s.tx, .faulted .preconditionError, fun s' hrx htx => ?_⟩
      rw [exec, execSet, State.N_eq_of_rx hrx, if_neg hl, State.raise_eq_respond, ← hrx, ← htx]

/-! ## Every operation keeps the invariants and answers -/

section Exec

variable {s t : State} {b : Byte}

theorem DecodeRow.keeps_inv (h : s.Inv) (ht : t.IsInstance) (hr : DecodeRow b s t) : t.Inv := by
  obtain ⟨hi, -, hcur, hmark⟩ := h
  have hlen : s.buf.length = s.N + 2 := hi.2.2.2
  cases hr with
  | start hp hb =>
    refine .of_accumulating ht rfl (Nat.le_refl 1) (Nat.succ_le_succ (Nat.zero_le _)) ?_
    exact (readByte_writeByte_same (by omega) b).trans hb
  | noise hp => exact .of_idle ht hp rfl
  | inside hp hc =>
    have hnext := State.storeByte_cursor_toNat hi (Nat.lt_of_succ_lt hc) b
    have hpos := (hcur hp).1
    refine .of_accumulating ht hp (hnext ▸ Nat.succ_le_succ (Nat.zero_le _)) (hnext ▸ Nat.le_of_lt_succ hc) ?_
    exact (readByte_writeByte_other _ (Nat.ne_of_gt hpos) b).trans (hmark hp)
  | complete | badSum => exact .of_idle ht rfl rfl

/-- Every operation keeps the invariants (R15). -/
theorem exec_keeps_inv {i : Instr} (h : s.Inv) (hx : exec i s = .next t) : t.Inv := by
  obtain ⟨ht, hN⟩ := exec_keeps_instance h.isInstance hx
  rcases Instr.isDecode_or_not i with ⟨b, rfl⟩ | hn
  · exact (DecodeRow.of_exec h.isInstance hx).keeps_inv h ht
  · obtain ⟨R, T, r, hR⟩ := exec_of_not_decode hn s
    cases (hR s rfl rfl).symm.trans hx
    obtain ⟨-, hidle, hcur, hmark⟩ := h
    exact ⟨ht, hidle, fun hp => hN.symm ▸ hcur hp, hmark⟩

/-- Under the invariants every operation answers a next state (R94, R125). -/
theorem exec_next (h : s.Inv) (i : Instr) : ∃ t, exec i s = .next t := by
  rcases Instr.isDecode_or_not i with ⟨b, rfl⟩ | hn
  · exact execDecode_next h.cursor_lt b
  · obtain ⟨R, T, r, hR⟩ := exec_of_not_decode hn s
    exact ⟨_, hR s rfl rfl⟩

theorem execAll_cons_eq_next_iff {i : Instr} {is : List Instr} :
    execAll (i :: is) s = .next t ↔ ∃ u, exec i s = .next u ∧ execAll is u = .next t := by
  cases hx : exec i s <;> simp [execAll, hx]

end Exec

/-! ## Two runs side by side -/

section Relational

variable {s t s' : State} {b : Byte}

/-- Storing a byte at an index keeps two stores alike that agree below it. -/
theorem take_succ_writeByte_congr {A B : List Byte} {i : Nat} (hi : i < A.length) (hl : B.length = A.length)
    (h : B.take i = A.take i) (v : Byte) : (writeByte B i v).take (i + 1) = (writeByte A i v).take (i + 1) := by
  simp [writeByte, List.take_add_one, List.take_set_of_le, h, hi, hl]

/-- T4 delivers what stands behind the marker before the checksum byte is stored (R99). -/
theorem State.storeByte_deliver {M : List Byte} (hc : s.cursor.toNat = s.N + 1)
    (hM : (s.buf.take (s.N + 1)).drop 1 = M) (b : Byte) :
    (s.storeByte b).deliver = { s.storeByte b with rx := M } := by
  have hrx : (s.storeByte b).deliver.rx = M := by
    calc (s.storeByte b).deliver.rx
      _ = ((s.storeByte b).buf.take (s.N + 1)).drop 1 := (List.drop_take (i := 1) (j := s.N + 1)).symm
      _ = (s.buf.take (s.N + 1)).drop 1 := by
        rw [State.storeByte_buf, hc, writeByte, List.take_set_of_le (Nat.le_refl _)]
      _ = M := hM
  exact hrx ▸ rfl

theorem State.SameButStale.isInstance (hst : s.SameButStale t) (hi : s.IsInstance) : t.IsInstance := by
  obtain ⟨h1, h253, htx, hbuf⟩ := hi
  obtain ⟨hst, hlen, -⟩ := hst
  rw [hst]
  exact ⟨h1, h253, htx, hlen.trans hbuf⟩

/-- From two states that differ in stale bytes only, `DECODE` takes the same row, and the results differ in stale bytes
only: the checksum and the message are computed from bytes below the cursor (R21). -/
theorem DecodeRow.sameButStale (h : s.Inv) (hst : s.SameButStale t) (hr : DecodeRow b s s') :
    ∃ t', DecodeRow b t t' ∧ s'.SameButStale t' := by
  have hi := h.isInstance
  have hlen : s.buf.length = s.N + 2 := hi.2.2.2
  obtain ⟨hst, hB, htake⟩ := hst
  generalize t.buf = B at hst hB htake
  subst hst
  have hBw : ∀ k, (writeByte B k b).length = (writeByte s.buf k b).length := by simpa using hB
  cases hr with
  | start hp hb =>
    have hpos : 0 < s.buf.length := by omega
    exact ⟨_, .start hp hb, rfl, hBw _, take_succ_writeByte_congr hpos hB rfl b⟩
  | noise hp hb => exact ⟨_, .noise hp hb, rfl, hB, rfl⟩
  | inside hp hc =>
    have hlt := h.cursor_lt hp
    refine ⟨_, .inside hp hc, rfl, hBw _, ?_⟩
    rw [State.respond_cursor, State.storeByte_cursor_toNat hi hlt b]
    exact take_succ_writeByte_congr (hlen ▸ hlt) hB htake b
  | complete hp hc hsum =>
    have hcN : s.cursor.toNat = s.N + 1 := Nat.succ.inj hc
    rw [hcN] at htake
    refine ⟨_, .complete hp hc (htake ▸ hsum), ?_, hBw _, rfl⟩
    rw [State.storeByte_deliver hcN rfl, State.storeByte_deliver (s := { s with buf := B }) hcN (congrArg _ htake)]
    rfl
  | badSum hp hc hsum =>
    have hcN : s.cursor.toNat = s.N + 1 := Nat.succ.inj hc
    rw [hcN] at htake
    exact ⟨_, .badSum hp hc (htake ▸ hsum), rfl, hBw _, rfl⟩

/-- No operation tells two states apart that differ in stale bytes only (R21). -/
theorem exec_sameButStale (h : s.Inv) (hst : s.SameButStale t) (i : Instr) :
    ∃ s' t', exec i s = .next s' ∧ exec i t = .next t' ∧ s'.SameButStale t' := by
  rcases Instr.isDecode_or_not i with ⟨b, rfl⟩ | hn
  · obtain ⟨s', hx⟩ := exec_next h (.decode b)
    obtain ⟨t', hrow, hst'⟩ := (DecodeRow.of_exec h.isInstance hx).sameButStale h hst
    exact ⟨s', t', hx, hrow.exec_eq (hst.isInstance h.isInstance), hst'⟩
  · obtain ⟨R, T, r, hR⟩ := exec_of_not_decode hn s
    obtain ⟨hst, hB, htake⟩ := hst
    generalize t.buf = B at hst hB htake
    subst hst
    exact ⟨_, _, hR s rfl rfl, hR _ rfl rfl, rfl, hB, htake⟩

/-- Two runs from states that differ in stale bytes only stay that way (R21). -/
theorem execAll_sameButStale (ops : List Instr) (h : s.Inv) (hst : s.SameButStale t) :
    ∃ s' t', execAll ops s = .next s' ∧ execAll ops t = .next t' ∧ s'.SameButStale t' := by
  induction ops generalizing s t with
  | nil => exact ⟨s, t, rfl, rfl, hst⟩
  | cons i is ih =>
    obtain ⟨u, v, hu, hv, huv⟩ := exec_sameButStale h hst i
    obtain ⟨s', t', hs', ht', hend⟩ := ih (exec_keeps_inv h hu) huv
    exact ⟨s', t', execAll_cons_eq_next_iff.2 ⟨u, hu, hs'⟩, execAll_cons_eq_next_iff.2 ⟨v, hv, ht'⟩, hend⟩

/-- `DECODE` in two states with the same parser and payload size takes the same row, gives the same answer and leaves
the same parser: it reads no message register (R94, R95). -/
theorem DecodeRow.sameParser (hp : t.parser = s.parser) (hN : t.N = s.N) (hr : DecodeRow b s s') :
    ∃ t' r, DecodeRow b t t' ∧ t'.parser = s'.parser ∧ s'.responses = s.responses ++ [r] ∧
      t'.responses = t.responses ++ [r] := by
  obtain ⟨p, c, B, rx, tx, pending, responses, draws⟩ := t
  obtain ⟨rfl, rfl, rfl⟩ := ParserView.mk.inj hp
  have hf := congrArg (· + 2) hN
  cases hr with
  | start hp hb => exact ⟨_, _, .start hp hb, rfl, rfl, rfl⟩
  | noise hp hb => exact ⟨_, _, .noise hp hb, rfl, rfl, rfl⟩
  | inside hp hc => exact ⟨_, _, .inside hp (hc.trans_eq hf.symm), rfl, rfl, rfl⟩
  | complete hp hc hsum => exact ⟨_, _, .complete hp (hc.trans hf.symm) (by rwa [hN]), rfl, rfl, rfl⟩
  | badSum hp hc hsum => exact ⟨_, _, .badSum hp (hc.trans hf.symm) (by rwa [hN]), rfl, rfl, rfl⟩

/-- An operation that is no `DECODE` leaves the parser as it is (R12). -/
theorem exec_of_not_decode_parser {i : Instr} (hn : isDecode i = false) (hx : exec i s = .next t) :
    t.parser = s.parser := by
  obtain ⟨R, T, r, hR⟩ := exec_of_not_decode hn s
  cases (hR s rfl rfl).symm.trans hx
  rfl

/-- A list of operations and its `DECODE`s alone, run from two states with the same parser and payload size, end with the
same parser and payload size. -/
theorem execAll_filter_isDecode (ops : List Instr) (hs : s.Inv) (ht : t.Inv) (hp : t.parser = s.parser)
    (hN : t.N = s.N) : ∃ s' t', execAll ops s = .next s' ∧ execAll (ops.filter isDecode) t = .next t' ∧
      t'.parser = s'.parser ∧ t'.N = s'.N := by
  induction ops generalizing s t with
  | nil => exact ⟨s, t, rfl, rfl, hp, hN⟩
  | cons i is ih =>
    obtain ⟨u, hu⟩ := exec_next hs i
    have hinv := exec_keeps_inv hs hu
    have huN := (exec_keeps_instance hs.isInstance hu).2
    rcases Instr.isDecode_or_not i with ⟨b, rfl⟩ | hn
    · obtain ⟨v, -, hrow, hpv, -, -⟩ := (DecodeRow.of_exec hs.isInstance hu).sameParser hp hN
      have hv := hrow.exec_eq ht.isInstance
      have hvN := (exec_keeps_instance ht.isInstance hv).2
      obtain ⟨s', t', hs', ht', hend⟩ := ih hinv (exec_keeps_inv ht hv) hpv (by omega)
      exact ⟨s', t', execAll_cons_eq_next_iff.2 ⟨u, hu, hs'⟩, execAll_cons_eq_next_iff.2 ⟨v, hv, ht'⟩, hend⟩
    · have hpu := exec_of_not_decode_parser hn hu
      obtain ⟨s', t', hs', ht', hend⟩ := ih hinv ht (hp.trans hpu.symm) (by omega)
      rw [List.filter_cons_of_neg (by simp [hn])]
      exact ⟨s', t', execAll_cons_eq_next_iff.2 ⟨u, hu, hs'⟩, ht', hend⟩

/-- The row that `DECODE` takes does not depend on the responses given before. -/
theorem DecodeRow.withResponses (hr : DecodeRow b s t) : ∃ r, t.responses = s.responses ++ [r] ∧
    ∀ past : List Response, DecodeRow b { s with responses := past } { t with responses := past ++ [r] } := by
  cases hr with
  | start hp hb => exact ⟨_, rfl, fun _ => .start hp hb⟩
  | noise hp hb => exact ⟨_, rfl, fun _ => .noise hp hb⟩
  | inside hp hc => exact ⟨_, rfl, fun _ => .inside hp hc⟩
  | complete hp hc hsum => exact ⟨_, rfl, fun _ => .complete hp hc hsum⟩
  | badSum hp hc hsum => exact ⟨_, rfl, fun _ => .badSum hp hc hsum⟩

/-- An operation gives one response, and neither it nor the rest of the next state depends on the responses given before
(R17). -/
theorem exec_withResponses {i : Instr} (hi : s.IsInstance) (hx : exec i s = .next t) :
    ∃ r, t.responses = s.responses ++ [r] ∧ ∀ past : List Response,
      exec i { s with responses := past } = .next { t with responses := past ++ [r] } := by
  rcases Instr.isDecode_or_not i with ⟨b, rfl⟩ | hn
  · obtain ⟨r, hr, hpast⟩ := (DecodeRow.of_exec hi hx).withResponses
    exact ⟨r, hr, fun past => (hpast past).exec_eq hi⟩
  · obtain ⟨R, T, r, hR⟩ := exec_of_not_decode hn s
    cases (hR s rfl rfl).symm.trans hx
    exact ⟨r, rfl, fun past => hR _ rfl rfl⟩

/-- A list of operations gives one response for each, and neither they nor the state reached depend on the responses
given before (R17). -/
theorem execAll_withResponses (ops : List Instr) (hi : s.IsInstance) (hx : execAll ops s = .next t) :
    ∃ given, t.responses = s.responses ++ given ∧ given.length = ops.length ∧ ∀ past : List Response,
      execAll ops { s with responses := past } = .next { t with responses := past ++ given } := by
  induction ops generalizing s with
  | nil =>
    cases hx
    exact ⟨[], by simp [execAll]⟩
  | cons i is ih =>
    obtain ⟨u, hu, hx⟩ := execAll_cons_eq_next_iff.1 hx
    obtain ⟨r, hr, hpast⟩ := exec_withResponses hi hu
    obtain ⟨given, hgiven, hlen, hrest⟩ := ih (exec_keeps_instance hi hu).1 hx
    refine ⟨r :: given, by simp [hgiven, hr], by simp [hlen], fun past => ?_⟩
    refine execAll_cons_eq_next_iff.2 ⟨_, hpast past, ?_⟩
    simpa using hrest (past ++ [r])

end Relational

/-! ## The obligations -/

/-- Settles O14, by the cases of the step. -/
theorem stepKeepsTheInvariants : Obligations.StepKeepsTheInvariants := by
  intro s t h hstep
  rcases step_cases h.isInstance hstep with ⟨-, rfl⟩ | ⟨rest, -, rfl⟩ | ⟨w, rest, i, -, -, hx⟩ | ⟨w, rest, r, -, -, rfl⟩
  · exact h
  · exact .of_idle (State.IsInstance.applyReset h.isInstance) rfl rfl
  · exact exec_keeps_inv (s := { s with pending := rest }) h hx
  · exact h

/-- Settles O49, by induction on the list of operations. -/
theorem staleBufferBytesAreUnobservable : Obligations.StaleBufferBytesAreUnobservable :=
  fun ops _ _ h hst => execAll_sameButStale ops h hst

/-- Settles O15, by the equation of the step for each host event. -/
theorem stepNeverStops : Obligations.StepNeverStops := by
  intro s h
  match hp : s.pending with
  | [] => exact ⟨s, step_of_pending_nil h.isInstance hp⟩
  | .reset :: rest => exact ⟨_, step_of_pending_reset h.isInstance hp⟩
  | .command w :: rest =>
    rw [step_of_pending_command h.isInstance hp]
    match hd : decode w with
    | .ok i =>
      rw [issue_of_decode_ok hd]
      exact exec_next (s := { s with pending := rest }) h i
    | .error r => exact ⟨_, issue_of_decode_error hd _⟩

/-- Settles O36, row by row. -/
theorem decodeFrame : Obligations.DecodeFrame := by
  intro s t b hi hx
  have hstore : ∀ k, k ≠ s.cursor.toNat → readByte (s.storeByte b).buf k = readByte s.buf k :=
    fun k hk => readByte_writeByte_other s.buf hk.symm b
  have hlen : (s.storeByte b).buf.length = s.buf.length := writeByte_length _ _ _
  cases DecodeRow.of_exec hi hx with
  | start hp hb =>
    exact ⟨rfl, rfl, rfl, writeByte_length _ _ _, fun k h0 _ => readByte_writeByte_other s.buf (h0 hp hb).symm b,
      _, rfl, rfl, rfl, rfl, nofun, fun _ => rfl⟩
  | noise hp hb => exact ⟨rfl, rfl, rfl, rfl, fun _ _ _ => rfl, _, rfl, rfl, rfl, rfl, nofun, fun _ => rfl⟩
  | inside hp hc =>
    exact ⟨rfl, rfl, rfl, hlen, fun k _ h => hstore k (h hp), _, rfl, rfl, rfl, rfl, nofun, fun _ => rfl⟩
  | complete hp hc hsum =>
    exact ⟨rfl, rfl, rfl, hlen, fun k _ h => hstore k (h hp), _, rfl, rfl, rfl, rfl, fun _ => rfl,
      fun hne => absurd rfl hne⟩
  | badSum hp hc hsum =>
    exact ⟨rfl, rfl, rfl, hlen, fun k _ h => hstore k (h hp), _, rfl, rfl, rfl, rfl, nofun, fun _ => rfl⟩

/-- Settles O48, by induction on the list of operations. -/
theorem parserIgnoresOtherOperations : Obligations.ParserIgnoresOtherOperations := by
  intro s ops h
  obtain ⟨t, u, ht, hu, hp, hN⟩ := execAll_filter_isDecode ops h h rfl rfl
  exact ⟨t, u, ht, hu, hp.symm, hN.symm⟩

/-- Settles O50, by induction on the list of operations. -/
theorem responsesAreNotSticky : Obligations.ResponsesAreNotSticky := by
  intro ops s t past hi hx
  obtain ⟨given, hgiven, hlen, hpast⟩ := execAll_withResponses ops hi hx
  exact ⟨given, hgiven, hlen, hpast past⟩

/-- Settles O12: the contents of a store after reset are unspecified, their number is not. -/
theorem resetIsIdle : Obligations.ResetIsIdle :=
  ⟨fun _ _ => ⟨rfl, rfl, State.fresh_N _ _, unspecified_length _ _ _ _, unspecified_length _ _ _ _⟩, rfl⟩

/-- Settles O13: the reset state is `Idle` with cursor 0. -/
theorem resetSatisfiesTheInvariants : Obligations.ResetSatisfiesTheInvariants :=
  ⟨fun _ draw h1 h253 => State.fresh_inv h1 h253 draw, State.fresh_inv (by decide) (by decide) 0⟩

/-- Settles O18: inside a frame the cursor is at most `N + 1`, and `N` at most 253. -/
theorem cursorNeverWraps : Obligations.CursorNeverWraps := by
  intro s b h hp
  have hlt := h.cursor_lt hp
  have hnext := State.storeByte_cursor_toNat h.isInstance hlt b
  obtain ⟨-, h253, -, hbuf⟩ := h.isInstance
  exact ⟨hnext, hbuf ▸ hlt, hnext ▸ hlt, Nat.add_le_add_right h253 2⟩

end Sys2Proof.Machine
end

section
/-! What an operation on a message register leaves unchanged: `SET` outside its field, `GET` and `ENCODE` everywhere
(`20_memory.md` R35 to R37). -/

namespace Sys2Proof.Machine

/-- `bf_set` writes byte `byte_idx` and, unless the case is ONE, the next; every other byte stays (R36, R74). -/
theorem readByte_bfSet_other {o b k : Nat} (M : List Byte) (v : Nat) (hk : k ≠ byteIdx o)
    (hk' : fieldCase o b = .one ∨ k ≠ byteIdx o + 1) : readByte (bfSet M o b v) k = readByte M k := by
  unfold bfSet
  cases hc : fieldCase o b with
  | one => exact readByte_writeByte_other _ hk.symm _
  | straddle | wide =>
    have hnext : k ≠ byteIdx o + 1 := hk'.resolve_left (by simp [hc])
    exact (readByte_writeByte_other _ hnext.symm _).trans (readByte_writeByte_other _ hk.symm _)

/-- `bf_set` leaves every message bit outside a legal field as it is (R36). -/
theorem msgBit_bfSet_outside {M : List Byte} {o b p : Nat} (h : Legal M.length o b) (v : Nat)
    (hp : ¬ (o ≤ p ∧ p < o + b)) : msgBit (bfSet M o b v) p = msgBit M p := by
  rw [bfSet_msgBit h, if_neg hp]

/-- The register an operation reads does not depend on the responses given before. -/
@[simp] theorem State.withResponses_msg (s : State) (past : List Response) (m : MsgSel) :
    ({ s with responses := past } : State).msg m = s.msg m :=
  State.msg_eq_of_registers rfl rfl m

/-- `GET` and `ENCODE` add one response, which the answers given before have no part in (R17, R35, R37). -/
theorem exec_get_or_encode {i : Instr} (hi : (∃ m o b, i = .get m o b) ∨ ∃ m, i = .encode m) (s : State) :
    ∃ r, ∀ past : List Response,
      exec i { s with responses := past } = .next { s with responses := past ++ [r] } := by
  rcases hi with ⟨m, o, b, rfl⟩ | ⟨m, rfl⟩
  · refine ⟨if Legal s.N o b then .value (bfGet (s.msg m) o b) else .faulted .preconditionError, fun past => ?_⟩
    rw [exec, execGet_eq, State.withResponses_msg]
    rfl
  · refine ⟨.emitted (encodeFrame (s.msg m)), fun past => ?_⟩
    rw [exec, execEncode, State.withResponses_msg]
    rfl

/-! ## The obligations -/

/-- Settles O22: legal operands write the register by `bf_set`, illegal ones write nothing. -/
theorem setFrame : Obligations.SetFrame := by
  intro s t m o b v hi hx
  rcases execSet_cases hx with ⟨hl, rfl⟩ | ⟨-, rfl⟩
  · have hlM : Legal (s.msg m).length o b := by rwa [hi.msg_length m]
    simp only [State.respond_msg, State.setMsg_msg_same]
    exact ⟨State.setMsg_pstate _ _ _, State.setMsg_cursor _ _ _, State.setMsg_buf _ _ _, State.setMsg_pending _ _ _,
      State.setMsg_draws _ _ _, exec_one_response hi hx, fun _ hm' => State.setMsg_msg_other s m _ hm',
      bfSet_length _ _ _ _, fun _ hk hk' => readByte_bfSet_other _ _ hk hk',
      fun _ hp => msgBit_bfSet_outside hlM _ hp⟩
  · simp

/-- Settles O23: the answer of `GET` and `ENCODE` is the same whatever was answered before, so it is repeated. -/
theorem getAndEncodeOnlyAnswer : Obligations.GetAndEncodeOnlyAnswer := by
  intro s i hi
  obtain ⟨r, hr⟩ := exec_get_or_encode hi s
  exact ⟨r, hr s.responses, by simpa using hr (s.responses ++ [r])⟩

end Sys2Proof.Machine
end

section
/-! The decoder and the encoder are inverse to each other, and the decoder's reading of a word is the opcode table's
(`30_encoding.md` R52 to R54, decision D9). -/

namespace Sys2Proof

/-! ## From words to operations and back -/

/-- What the decoder accepts, as an equivalence: `decode_cases` and its converse (R54). -/
theorem decode_eq_ok_iff {w : CmdWord} {i : Instr} : decode w = .ok i ↔ rsvField w = 0 ∧
    ((opField w = 1 ∧ wdataField w = 0 ∧ i = .get (.ofBit (mField w)) (offsetField w) (bitsizeField w)) ∨
     (opField w = 2 ∧ i = .set (.ofBit (mField w)) (offsetField w) (bitsizeField w) (BitVec.ofNat 16 (wdataField w))) ∨
     (opField w = 3 ∧ bitsizeField w = 0 ∧ offsetField w = 0 ∧ wdataField w = 0 ∧ i = .encode (.ofBit (mField w))) ∨
     (opField w = 4 ∧ mField w = 0 ∧ bitsizeField w = 0 ∧ offsetField w = 0 ∧ wdataField w < 256 ∧
        i = .decode (BitVec.ofNat 8 (wdataField w)))) := by
  refine ⟨decode_cases, ?_⟩
  rintro ⟨hr, ⟨ho, hw, rfl⟩ | ⟨ho, rfl⟩ | ⟨ho, hs, hf, hw, rfl⟩ | ⟨ho, hm, hs, hf, hw, rfl⟩⟩ <;> simp [decode, *]

/-- A word whose reserved bits are 0 is its other fields, packed (R52). -/
theorem packCmd_fields {w : CmdWord} (hr : rsvField w = 0) :
    packCmd (opField w) (mField w) (bitsizeField w) (offsetField w) (wdataField w) = w := by
  have hw := toNat_eq_fields w
  apply BitVec.eq_of_toNat_eq
  rw [packCmd_toNat (op := opField w) (m := mField w) (bitsize := bitsizeField w) (offset := offsetField w)
    (wdata := wdataField w) (cmdField_lt w 36 4) (cmdField_lt w 32 1) (cmdField_lt w 27 5) (cmdField_lt w 16 11)
    (cmdField_lt w 0 16)]
  omega

theorem bit_ofBit_mField (w : CmdWord) : (MsgSel.ofBit (mField w)).bit = mField w :=
  MsgSel.bit_ofBit (cmdField_lt w 32 1)

theorem toNat_ofNat_wdataField (w : CmdWord) : (BitVec.ofNat 16 (wdataField w)).toNat = wdataField w :=
  Nat.mod_eq_of_lt (cmdField_lt w 0 16)

/-- A decoded operation fits its fields (R52). -/
theorem wellFormed_of_decode {w : CmdWord} {i : Instr} (h : decode w = .ok i) : i.WellFormed := by
  have hfit : offsetField w < 2048 ∧ bitsizeField w < 32 := ⟨cmdField_lt w 16 11, cmdField_lt w 27 5⟩
  obtain ⟨-, ⟨-, -, rfl⟩ | ⟨-, rfl⟩ | ⟨-, -, -, -, rfl⟩ | ⟨-, -, -, -, -, rfl⟩⟩ := decode_cases h
  · exact hfit
  · exact hfit
  · trivial
  · trivial

/-- The encoder undoes the decoder: no bit of an accepted word is ignored (R54, D9). -/
theorem encode_of_decode {w : CmdWord} {i : Instr} (h : decode w = .ok i) : encode i = w := by
  obtain ⟨hr, hrow⟩ := decode_cases h
  have hpack := packCmd_fields hr
  obtain ⟨ho, hw, rfl⟩ | ⟨ho, rfl⟩ | ⟨ho, hs, hf, hw, rfl⟩ | ⟨ho, hm, hs, hf, hw, rfl⟩ := hrow
  · rwa [ho, hw, ← bit_ofBit_mField] at hpack
  · rwa [ho, ← bit_ofBit_mField, ← toNat_ofNat_wdataField] at hpack
  · rwa [ho, hs, hf, hw, ← bit_ofBit_mField] at hpack
  · have hb : (BitVec.ofNat 8 (wdataField w)).toNat = wdataField w := Nat.mod_eq_of_lt hw
    rwa [ho, hm, hs, hf, ← hb] at hpack

/-! ## The masks of the opcode table -/

/-- The word with ones at bits `lo + len - 1` to `lo` and zeros elsewhere: the mask of the field `cmdField w lo len`. -/
def fieldMask (lo len : Nat) : CmdWord := BitVec.ofNat 40 ((2 ^ len - 1) <<< lo)

/-- The mask of several fields, each given by its lowest bit and its length. -/
def fieldsMask : List (Nat × Nat) → CmdWord
  | [] => 0
  | (lo, len) :: fs => fieldMask lo len ||| fieldsMask fs

theorem cmdField_testBit (w : CmdWord) (lo len i : Nat) :
    (cmdField w lo len).testBit i = (decide (i < len) && w.getLsbD (lo + i)) := by
  rw [cmdField, ← Nat.shiftRight_eq_div_pow, Nat.testBit_mod_two_pow, Nat.testBit_shiftRight, BitVec.testBit_toNat]

theorem fieldMask_getLsbD {lo len i : Nat} (hi : i < 40) :
    (fieldMask lo len).getLsbD i = decide (lo ≤ i ∧ i < lo + len) := by
  rw [fieldMask, BitVec.getLsbD_ofNat, Nat.testBit_shiftLeft, Nat.testBit_two_pow_sub_one]
  by_cases hlo : lo ≤ i
  · simp [hi, hlo, Nat.sub_lt_iff_lt_add' hlo]
  · simp [hlo]

/-- Two words agree under a mask exactly when they agree at each of its bits. -/
theorem and_eq_and_iff (w p a : CmdWord) :
    w &&& a = p &&& a ↔ ∀ i, i < 40 → a.getLsbD i = true → w.getLsbD i = p.getLsbD i := by
  rw [BitVec.eq_of_getLsbD_eq_iff]
  refine forall₂_congr fun i hi => ?_
  rw [BitVec.getLsbD_and, BitVec.getLsbD_and]
  cases a.getLsbD i <;> simp

/-- Two words agree under two masks together exactly when they agree under each. -/
theorem and_or_eq_and_or_iff (w p a b : CmdWord) :
    w &&& (a ||| b) = p &&& (a ||| b) ↔ w &&& a = p &&& a ∧ w &&& b = p &&& b := by
  simp only [and_eq_and_iff, BitVec.getLsbD_or, Bool.or_eq_true, or_imp, forall_and]

/-- Two words agree under the mask of a field exactly when they have the same field. -/
theorem and_fieldMask_eq_iff (w p : CmdWord) {lo len : Nat} (h : lo + len ≤ 40) :
    w &&& fieldMask lo len = p &&& fieldMask lo len ↔ cmdField w lo len = cmdField p lo len := by
  rw [and_eq_and_iff]
  constructor
  · intro hbits
    apply Nat.eq_of_testBit_eq
    intro i
    rw [cmdField_testBit, cmdField_testBit]
    by_cases hi : i < len
    · rw [hbits (lo + i) (by omega) (by simp [fieldMask_getLsbD (show lo + i < 40 by omega), hi])]
    · simp [hi]
  · intro hfield i hi hin
    rw [fieldMask_getLsbD hi, decide_eq_true_iff] at hin
    have hlt : i - lo < len := by omega
    have hbit := congrArg (fun n => Nat.testBit n (i - lo)) hfield
    simpa [cmdField_testBit, hlt, hin] using hbit

/-- Two words agree under the mask of some fields exactly when they have the same value in each of them. -/
theorem and_fieldsMask_eq_iff (w p : CmdWord) {fs : List (Nat × Nat)} (hfit : fs.Forall fun f => f.1 + f.2 ≤ 40) :
    w &&& fieldsMask fs = p &&& fieldsMask fs ↔ fs.Forall fun f => cmdField w f.1 f.2 = cmdField p f.1 f.2 := by
  induction fs with
  | nil => simp [fieldsMask]
  | cons f fs ih =>
    rw [List.forall_cons] at hfit ⊢
    rw [fieldsMask, and_or_eq_and_or_iff, and_fieldMask_eq_iff _ _ hfit.1, ih hfit.2]

/-- A word is of a row whose mask is that of some fields, and whose pattern is 0 outside them, exactly when it has the
pattern's value in each of them. -/
theorem OpRow.matches_iff_fields {r : OpRow} {w : CmdWord} (fs : List (Nat × Nat)) (hmask : r.mask = fieldsMask fs)
    (hpat : r.pattern &&& r.mask = r.pattern) (hfit : fs.Forall fun f => f.1 + f.2 ≤ 40) :
    r.Matches w ↔ fs.Forall fun f => cmdField w f.1 f.2 = cmdField r.pattern f.1 f.2 := by
  rw [← and_fieldsMask_eq_iff _ _ hfit, ← hmask, hpat]

section Rows

variable {w : CmdWord}

theorem rowGet_matches_iff : rowGet.Matches w ↔ rsvField w = 0 ∧ opField w = 1 ∧ wdataField w = 0 :=
  OpRow.matches_iff_fields [(33, 3), (36, 4), (0, 16)] (by decide) (by decide) (by decide)

theorem rowSet_matches_iff : rowSet.Matches w ↔ rsvField w = 0 ∧ opField w = 2 :=
  OpRow.matches_iff_fields [(33, 3), (36, 4)] (by decide) (by decide) (by decide)

theorem rowEncode_matches_iff : rowEncode.Matches w ↔
    rsvField w = 0 ∧ opField w = 3 ∧ bitsizeField w = 0 ∧ offsetField w = 0 ∧ wdataField w = 0 :=
  OpRow.matches_iff_fields [(33, 3), (36, 4), (27, 5), (16, 11), (0, 16)] (by decide) (by decide) (by decide)

/-- Of `wdata`, the mask of row `DECODE` has the high byte, which is 0 exactly when the value fits a byte. -/
theorem rowDecode_matches_iff : rowDecode.Matches w ↔
    rsvField w = 0 ∧ opField w = 4 ∧ mField w = 0 ∧ bitsizeField w = 0 ∧ offsetField w = 0 ∧ wdataField w < 256 := by
  have hhigh : wdataField w < 256 ↔ cmdField w 8 8 = 0 := by
    unfold wdataField cmdField
    omega
  rw [hhigh]
  exact OpRow.matches_iff_fields [(33, 3), (36, 4), (32, 1), (27, 5), (16, 11), (8, 8)] (by decide) (by decide)
    (by decide)

/-! ## The rows and the decoder -/

theorem ofNat_wdataField : BitVec.ofNat 16 (wdataField w) = w.extractLsb' 0 16 := by
  rw [wdataField, cmdField_eq_extract, BitVec.ofNat_toNat, BitVec.setWidth_eq]

theorem ofNat_wdataField_byte : BitVec.ofNat 8 (wdataField w) = w.extractLsb' 0 8 := by
  rw [wdataField, cmdField_eq_extract, BitVec.ofNat_toNat]
  ext i hi
  simp [show i < 16 by omega]

theorem rowGet_matches_iff_decode : rowGet.Matches w ↔
    decode w = .ok (.get (.ofBit (mField w)) (offsetField w) (bitsizeField w)) := by
  rw [rowGet_matches_iff, decode_eq_ok_iff]
  simp

theorem rowSet_matches_iff_decode : rowSet.Matches w ↔
    decode w = .ok (.set (.ofBit (mField w)) (offsetField w) (bitsizeField w) (w.extractLsb' 0 16)) := by
  rw [rowSet_matches_iff, decode_eq_ok_iff]
  simp [ofNat_wdataField]

theorem rowEncode_matches_iff_decode : rowEncode.Matches w ↔ decode w = .ok (.encode (.ofBit (mField w))) := by
  rw [rowEncode_matches_iff, decode_eq_ok_iff]
  simp

theorem rowDecode_matches_iff_decode : rowDecode.Matches w ↔ decode w = .ok (.decode (w.extractLsb' 0 8)) := by
  rw [rowDecode_matches_iff, decode_eq_ok_iff]
  simp [ofNat_wdataField_byte]

/-- A word is an operation exactly when it is of a row (R54). -/
theorem exists_decode_ok_iff : (∃ i, decode w = .ok i) ↔
    rowGet.Matches w ∨ rowSet.Matches w ∨ rowEncode.Matches w ∨ rowDecode.Matches w := by
  simp only [decode_eq_ok_iff, rowGet_matches_iff, rowSet_matches_iff, rowEncode_matches_iff, rowDecode_matches_iff,
    exists_and_left, exists_or, exists_eq, and_true, and_or_left]

/-- A word is rejected exactly when it is of no row (R54, R57). -/
theorem exists_decode_error_iff : (∃ r, decode w = .error r) ↔
    ¬ rowGet.Matches w ∧ ¬ rowSet.Matches w ∧ ¬ rowEncode.Matches w ∧ ¬ rowDecode.Matches w := by
  have hnot : (∃ r, decode w = .error r) ↔ ¬ ∃ i, decode w = .ok i := by
    cases decode w <;> simp
  rw [hnot, exists_decode_ok_iff]
  simp only [not_or]

end Rows

/-! ## The obligations -/

/-- Settles O1, by the round trip on each operation. -/
theorem decodeOfEncodeIsTheOperation : Obligations.DecodeOfEncodeIsTheOperation :=
  fun _ => decode_encode

/-- Settles O2, by the inversion of the decoder: the word is its fields, packed. -/
theorem eachOperationHasOneWord : Obligations.EachOperationHasOneWord :=
  fun _ _ h => ⟨wellFormed_of_decode h, encode_of_decode h⟩

/-- Settles O3: each mask covers whole fields, so a match fixes their values, which are those the decoder tests. -/
theorem decoderAgreesWithMatchAndMask : Obligations.DecoderAgreesWithMatchAndMask := by
  intro w
  simp only [← cmdField_eq_extract]
  exact ⟨rowGet_matches_iff_decode, rowSet_matches_iff_decode, rowEncode_matches_iff_decode,
    rowDecode_matches_iff_decode, exists_decode_error_iff⟩

/-- Settles O4, by running the decoder on the seven words. -/
theorem writtenWordsDecode : Obligations.WrittenWordsDecode := by
  unfold Obligations.WrittenWordsDecode
  decide

end Sys2Proof
end

section
/-! Bytes fed to the parser one after another: inside a frame, from `Idle` up to the last byte, and a whole valid frame
(`41_framing.md` R91, R96 to R99, R102). -/

namespace Sys2Proof.Machine

/-- The checksum does not depend on the order of the bytes (R91). -/
theorem checksum_perm {l l' : List Byte} (h : l.Perm l') : checksum l = checksum l' :=
  congrArg (BitVec.ofNat 8) (h.map BitVec.toNat).sum_eq

/-! ## A frame in flight -/

/-- The block where a frame begun in `s` stands after the bytes `bs`, the marker among them: they stand first in the
buffer, the cursor counts them, and each was answered with `NotComplete` (R14, R15, R101). -/
def State.inFrame (s : State) (bs : List Byte) : State :=
  { s with
    pstate := .accumulating
    cursor := BitVec.ofNat 8 bs.length
    buf := bs ++ s.buf.drop bs.length
    responses := s.responses ++ List.replicate bs.length .notComplete }

section InFrame

variable {s : State} {bs : List Byte}

@[simp] theorem State.inFrame_pstate : (s.inFrame bs).pstate = .accumulating := rfl
@[simp] theorem State.inFrame_N : (s.inFrame bs).N = s.N := rfl
@[simp] theorem State.inFrame_frameSize : (s.inFrame bs).frameSize = s.frameSize := rfl

@[simp] theorem State.inFrame_take : (s.inFrame bs).buf.take bs.length = bs := List.take_left

theorem State.inFrame_isInstance (hi : s.IsInstance) (hl : bs.length ≤ s.frameSize) : (s.inFrame bs).IsInstance := by
  obtain ⟨h1, h253, htx, hbuf⟩ := hi
  refine ⟨h1, h253, htx, ?_⟩
  rw [State.inFrame_frameSize, State.inFrame, List.length_append, List.length_drop]
  omega

theorem State.inFrame_cursor_toNat (hi : s.IsInstance) (hl : bs.length ≤ s.frameSize) :
    (s.inFrame bs).cursor.toNat = bs.length := by
  obtain ⟨-, h253, -, -⟩ := hi
  have h253 : s.frameSize ≤ 253 + 2 := Nat.add_le_add_right h253 2
  exact Nat.mod_eq_of_lt (by omega)

theorem State.inFrame_storeByte_buf (hi : s.IsInstance) (hl : bs.length < s.frameSize) (b : Byte) :
    ((s.inFrame bs).storeByte b).buf = bs ++ [b] ++ s.buf.drop (bs.length + 1) := by
  have hlt : bs.length < s.buf.length := hi.2.2.2 ▸ hl
  rw [State.storeByte_buf, State.inFrame_cursor_toNat hi hl.le, writeByte, State.inFrame,
    List.set_append_right _ _ (Nat.le_refl _), Nat.sub_self, List.drop_eq_getElem_cons hlt, List.set_cons_zero,
    List.append_assoc, List.singleton_append]

/-- Storing the next byte of a frame in flight. -/
theorem State.inFrame_storeByte (hi : s.IsInstance) (hl : bs.length < s.frameSize) (b : Byte) :
    ((s.inFrame bs).storeByte b).respond .notComplete = s.inFrame (bs ++ [b]) := by
  have hbuf := State.inFrame_storeByte_buf hi hl b
  rw [State.storeByte_buf] at hbuf
  rw [State.storeByte, hbuf]
  simp [State.inFrame, State.respond, BitVec.ofNat_add, List.replicate_add]

/-- T1: the marker in `Idle` begins a frame (R96). -/
theorem exec_decode_marker (hi : s.IsInstance) (hp : s.pstate = .idle) :
    exec (.decode Config.marker) s = .next (s.inFrame [Config.marker]) := by
  obtain ⟨x, xs, hbuf⟩ : ∃ x xs, s.buf = x :: xs := List.exists_cons_of_length_eq_add_one hi.2.2.2
  rw [(DecodeRow.start hp rfl).exec_eq hi]
  simp [State.acceptMarker, State.inFrame, State.respond, writeByte, hbuf]

/-- T3: bytes that do not fill a frame in flight are stored one behind the other, whatever they are (R98). -/
theorem execAll_decode_inFrame (l : List Byte) (hi : s.IsInstance) (hl : bs.length + l.length < s.frameSize) :
    execAll (l.map .decode) (s.inFrame bs) = .next (s.inFrame (bs ++ l)) := by
  induction l generalizing bs with
  | nil => simp [execAll]
  | cons b l ih =>
    rw [List.length_cons] at hl
    have hle : bs.length ≤ s.frameSize := by omega
    have hrow : DecodeRow b (s.inFrame bs) (((s.inFrame bs).storeByte b).respond .notComplete) := by
      refine .inside rfl ?_
      rw [State.inFrame_cursor_toNat hi hle, State.inFrame_frameSize]
      omega
    have hx := hrow.exec_eq (State.inFrame_isInstance hi hle)
    rw [State.inFrame_storeByte hi (by omega)] at hx
    have hrest := ih (bs := bs ++ [b]) (by simp; omega)
    rw [List.append_assoc] at hrest
    exact execAll_cons_eq_next_iff.2 ⟨_, hx, hrest⟩

/-- T4: the checksum of the bytes before it completes a frame begun in `Idle` and delivers its payload (R99). -/
theorem exec_decode_checksum {M : List Byte} (h : s.Inv) (hp : s.pstate = .idle) (hM : M.length = s.N) :
    exec (.decode (checksum (Config.marker :: M))) (s.inFrame (Config.marker :: M)) = .next { s with
      buf := encodeFrame M
      rx := M
      responses := s.responses ++ List.replicate (s.N + 1) .notComplete ++ [.frameComplete] } := by
  obtain ⟨hi, hidle, -⟩ := h
  have hlen : (Config.marker :: M).length = s.N + 1 := congrArg (· + 1) hM
  have hle : (Config.marker :: M).length < s.frameSize := hlen ▸ Nat.lt_succ_self _
  have hcur := (State.inFrame_cursor_toNat hi hle.le).trans hlen
  have htake : (s.inFrame (Config.marker :: M)).buf.take (s.N + 1) = Config.marker :: M := hlen ▸ State.inFrame_take
  have hrow := DecodeRow.complete rfl (congrArg (· + 1) hcur) (congrArg checksum htake)
  rw [hrow.exec_eq (State.inFrame_isInstance hi hle.le), State.storeByte_deliver hcur (congrArg (List.drop 1) htake)]
  have hend : s.buf.drop (s.N + 2) = [] := List.drop_eq_nil_of_le (Nat.le_of_eq hi.2.2.2)
  have hbuf := State.inFrame_storeByte_buf hi hle (checksum (Config.marker :: M))
  rw [hlen, hend, State.storeByte_buf] at hbuf
  rw [State.storeByte, hbuf]
  simp [State.inFrame, State.enterIdle, State.respond, encodeFrame, hp, hidle hp, hM]

end InFrame

/-- Feeding the frame of a message from `Idle` delivers the message (R102). -/
theorem execAll_decode_encodeFrame {s : State} {M : List Byte} (h : s.Inv) (hp : s.pstate = .idle)
    (hM : M.length = s.N) :
    execAll ((encodeFrame M).map .decode) s = .next { s with
      buf := encodeFrame M
      rx := M
      responses := s.responses ++ List.replicate (s.N + 1) .notComplete ++ [.frameComplete] } := by
  have hbody : execAll (M.map .decode) (s.inFrame [Config.marker]) = .next (s.inFrame (Config.marker :: M)) :=
    execAll_decode_inFrame M h.isInstance (by simp [State.frameSize]; omega)
  refine execAll_cons_eq_next_iff.2 ⟨_, exec_decode_marker h.isInstance hp, ?_⟩
  rw [List.map_append, execAll_append _ _ hbody]
  exact execAll_cons_eq_next_iff.2 ⟨_, exec_decode_checksum h hp hM, rfl⟩

/-! ## The obligations -/

/-- Settles O45: a permuted payload has the same checksum, so the bytes fed are the frame of the permuted message. -/
theorem permutedPayloadIsNotDetected : Obligations.PermutedPayloadIsNotDetected := by
  intro s M M' h hp hM hperm
  have hsum : checksum (0xAA :: M) = checksum (0xAA :: M') := checksum_perm (hperm.cons 0xAA)
  rw [hsum]
  exact ⟨_, execAll_decode_encodeFrame h hp (hperm.length_eq ▸ hM), rfl, List.getLast?_concat⟩

end Sys2Proof.Machine
end

section
/-! The pseudo-operations that load, read and clear bytes of a message register (`30_encoding.md` R60). -/

namespace Sys2Proof.Machine

/-! ## A field that is one whole byte -/

theorem legal_byte {n i : Nat} (h : i < n) : Legal n (8 * i) 8 := by
  refine ⟨by decide, fun h8 => absurd h8 (by decide), ?_⟩
  omega

theorem byteIdx_byte (i : Nat) : byteIdx (8 * i) = i := Nat.mul_div_cancel_left i (by decide)

theorem bitShift_byte (i : Nat) : bitShift (8 * i) = 0 := Nat.mul_mod_right 8 i

theorem fieldCase_byte (i : Nat) : fieldCase (8 * i) 8 = .one := by
  rw [fieldCase, bitShift_byte]
  rfl

/-- Reading a whole byte (R78). -/
theorem bfGet_byte (M : List Byte) (i : Nat) : bfGet M (8 * i) 8 = (readByte M i).toNat := by
  simp only [bfGet, fieldCase_byte, byteIdx_byte, bitShift_byte, Nat.shiftRight_zero, maskOf_eq,
    Nat.and_two_pow_sub_one_eq_mod]
  exact Nat.mod_eq_of_lt (readByte M i).isLt

/-- Writing a whole byte replaces it by the value's low byte (R78). -/
theorem bfSet_byte (M : List Byte) (i v : Nat) : bfSet M (8 * i) 8 v = M.set i (BitVec.ofNat 8 (v % 256)) := by
  have hmask : maskOf 8 = 255 := rfl
  simp only [bfSet, fieldCase_byte, byteIdx_byte, bitShift_byte, Nat.shiftLeft_zero, writeByte, mergeByte, hmask,
    not8, Nat.sub_self, Nat.and_zero, Nat.zero_or, Nat.and_two_pow_sub_one_eq_mod v 8]

/-! ## Register writes -/

@[simp] theorem State.setMsg_setMsg (s : State) (m : MsgSel) (M M' : List Byte) :
    (s.setMsg m M).setMsg m M' = s.setMsg m M' := by
  cases m <;> rfl

@[simp] theorem State.setMsg_msg_self (s : State) (m : MsgSel) : s.setMsg m (s.msg m) = s := by
  cases m <;> rfl

theorem State.withResponses_setMsg (s : State) (past : List Response) (m : MsgSel) (M : List Byte) :
    ({ s with responses := past } : State).setMsg m M = { s.setMsg m M with responses := past } := by
  cases m <;> rfl

/-- Zeroing the byte behind `k` zeroed ones. -/
theorem set_replicate_append_drop {M : List Byte} {k : Nat} (hk : k < M.length) :
    (List.replicate k 0 ++ M.drop k).set k 0 = List.replicate (k + 1) 0 ++ M.drop (k + 1) := by
  rw [List.set_append_right _ _ (by simp), List.length_replicate, Nat.sub_self, List.drop_eq_getElem_cons hk,
    List.set_cons_zero, List.replicate_succ', List.append_assoc, List.singleton_append]

/-! ## The expansions -/

section Pseudo

variable {s : State} {m : MsgSel} {i : Nat}

theorem exec_get_byte (hi : i < s.N) : exec (.get m (8 * i) 8) s =
    .next (s.respond (.value (readByte (s.msg m) i).toNat)) := by
  rw [exec, execGet_eq, if_pos (legal_byte hi), bfGet_byte]

theorem exec_set_byte (hi : i < s.N) (v : Half) : exec (.set m (8 * i) 8 v) s =
    .next ((s.setMsg m ((s.msg m).set i (BitVec.ofNat 8 (v.toNat % 256)))).respond .done) := by
  rw [exec, execSet, if_pos (legal_byte hi), bfSet_byte]

/-- The first `k` operations of `CLR m` zero the first `k` bytes of the register. -/
theorem execAll_clear {k : Nat} (hi : s.IsInstance) (hk : k ≤ s.N) :
    execAll ((List.range k).map fun i => .set m (8 * i) 8 0) s =
      .next (({ s with responses := s.responses ++ List.replicate k .done } : State).setMsg m
        (List.replicate k 0 ++ (s.msg m).drop k)) := by
  induction k with
  | zero => simp [execAll]
  | succ k ih =>
    have hlen : (s.msg m).length = s.N := hi.msg_length m
    have hN : (({ s with responses := s.responses ++ List.replicate k .done } : State).setMsg m
        (List.replicate k 0 ++ (s.msg m).drop k)).N = s.N := State.setMsg_N _ _ _ (by simp; omega)
    have hset := set_replicate_append_drop (M := s.msg m) (k := k) (by omega)
    have hzero : BitVec.ofNat 8 ((0 : Half).toNat % 256) = 0 := rfl
    rw [List.range_succ, List.map_append, execAll_append _ _ (ih (by omega))]
    refine execAll_cons_eq_next_iff.2 ⟨_, exec_set_byte (hN ▸ hk) 0, ?_⟩
    rw [State.setMsg_msg_same, State.setMsg_setMsg, hzero, hset, State.respond, State.setMsg_responses,
      ← State.withResponses_setMsg, List.append_assoc, ← List.replicate_succ']
    rfl

end Pseudo

/-! ## The obligations -/

/-- Settles O56: each expansion accesses whole bytes inside the register; `CLR` by induction on the bytes cleared. -/
theorem pseudoOperationsDoWhatTheySay : Obligations.PseudoOperationsDoWhatTheySay := by
  intro s m hi
  refine ⟨?_, fun i v hlt => ?_, fun i hlt => ?_⟩
  · rw [Pseudo.expand, execAll_clear hi (Nat.le_refl _), List.drop_eq_nil_of_le (hi.msg_length m).le, List.append_nil,
      State.withResponses_setMsg]
    rfl
  · refine execAll_cons_eq_next_iff.2 ⟨_, exec_set_byte hlt v, ?_⟩
    rw [execAll, State.respond, State.setMsg_responses]
    rfl
  · exact execAll_cons_eq_next_iff.2 ⟨_, exec_get_byte hlt, rfl⟩

end Sys2Proof.Machine
end

section
/-! What the assembler accepts is well formed: its operands are in the ranges of `30_encoding.md` R59, and so are those
of the operations a pseudo-operation expands to (R60). -/

namespace Sys2Proof.Machine

/-- The operands of a pseudo-operation are in range for payload size `n`: `LDB` and `RDB` name a byte of the message
(R60). The other operands fit by their types. -/
def Pseudo.InRange (n : Nat) : Pseudo → Prop
  | .ldb _ i _ => i < n
  | .rdb _ i => i < n
  | .clr _ => True
  | .feed _ => True
  | .send _ => True
  | .feedSeq _ => True

/-- The bit offset of a byte of the largest message fits the 11 bits of its field (R4, R52). -/
theorem byte_offset_lt {n i : Nat} (hn : n ≤ 253) (hi : i < n) : 8 * i < 2048 := by omega

theorem Pseudo.expand_wellFormed {n : Nat} (hn : n ≤ 253) {p : Pseudo} (hp : p.InRange n) :
    ∀ i ∈ p.expand n, i.WellFormed := by
  cases p with
  | ldb m i v | rdb m i => simpa [Pseudo.expand, Instr.WellFormed] using byte_offset_lt hn hp
  | clr m =>
    simpa [Pseudo.expand, Instr.WellFormed] using fun i hi => byte_offset_lt hn hi
  | feed b | send m | feedSeq bs => simp [Pseudo.expand, Instr.WellFormed]

/-- An operand the assembler accepts is below its limit. -/
theorem lt_of_parseBelow {limit v : Nat} {t : List Char} (h : parseBelow limit t = some v) : v < limit := by
  unfold parseBelow at h
  split at h
  · split at h
    · cases h
      assumption
    · cases h
  · cases h

/-- INVERSION of the assembler: a line it accepts is one operation or one pseudo-operation, with operands in range
(R59, R60). -/
theorem assembleOp_cases {n : Nat} {name : List Char} {args : List (List Char)} {ops : List Instr}
    (h : assembleOp n name args = some ops) :
    (∃ i : Instr, i.WellFormed ∧ ops = [i]) ∨ ∃ p : Pseudo, p.InRange n ∧ ops = p.expand n := by
  unfold assembleOp at h
  split_ifs at h
  on_goal 10 =>
    obtain ⟨bs, -, rfl⟩ := Option.map_eq_some_iff.1 h
    exact .inr ⟨.feedSeq bs, trivial, rfl⟩
  all_goals
    split at h <;>
      simp only [Option.bind_eq_bind, Option.pure_def, Option.bind_eq_some_iff, Option.some.injEq, reduceCtorEq] at h
  · obtain ⟨m, -, o, ho, b, hb, rfl⟩ := h
    exact .inl ⟨.get m o b, ⟨lt_of_parseBelow ho, lt_of_parseBelow hb⟩, rfl⟩
  · obtain ⟨m, -, o, ho, b, hb, v, -, rfl⟩ := h
    exact .inl ⟨.set m o b _, ⟨lt_of_parseBelow ho, lt_of_parseBelow hb⟩, rfl⟩
  · obtain ⟨m, -, rfl⟩ := h
    exact .inl ⟨.encode m, trivial, rfl⟩
  · obtain ⟨b, -, rfl⟩ := h
    exact .inl ⟨.decode _, trivial, rfl⟩
  · obtain ⟨m, -, i, hi, v, -, rfl⟩ := h
    exact .inr ⟨.ldb m i _, lt_of_parseBelow hi, rfl⟩
  · obtain ⟨m, -, i, hi, rfl⟩ := h
    exact .inr ⟨.rdb m i, lt_of_parseBelow hi, rfl⟩
  · obtain ⟨m, -, rfl⟩ := h
    exact .inr ⟨.clr m, trivial, rfl⟩
  · obtain ⟨b, -, rfl⟩ := h
    exact .inr ⟨.feed _, trivial, rfl⟩
  · obtain ⟨m, -, rfl⟩ := h
    exact .inr ⟨.send m, trivial, rfl⟩

/-- Settles O57: the assembler checks the range of every operand it puts into an operation. -/
theorem assemblerGivesWellFormedOperations : Obligations.AssemblerGivesWellFormedOperations := by
  intro n line ops hn h
  unfold assembleLine at h
  split at h
  · cases h
    simp
  · split at h
    · rcases assembleOp_cases h with ⟨i, hi, rfl⟩ | ⟨p, hp, rfl⟩
      · simpa using hi
      · exact Pseudo.expand_wellFormed hn hp
    · cases h

end Sys2Proof.Machine
end

section
/-! A `GET` or `SET` word with a non-zero field that its row has at 0 is no operation (`30_encoding.md` R54,
`40_bitfield.md` R75, R76). -/

namespace Sys2Proof

section IllFormed

variable {w : CmdWord}

theorem extract_eq_iff_cmdField (w : CmdWord) {lo len : Nat} (x : BitVec len) :
    w.extractLsb' lo len = x ↔ cmdField w lo len = x.toNat := by
  rw [cmdField_eq_extract, BitVec.toNat_inj]

theorem exists_decode_error_of_get_word (ho : opField w = 1) (hz : wdataField w ≠ 0 ∨ rsvField w ≠ 0) :
    ∃ r, decode w = .error r := by
  rw [exists_decode_error_iff, rowGet_matches_iff, rowSet_matches_iff, rowEncode_matches_iff, rowDecode_matches_iff]
  omega

theorem exists_decode_error_of_set_word (ho : opField w = 2) (hz : rsvField w ≠ 0) : ∃ r, decode w = .error r := by
  rw [exists_decode_error_iff, rowGet_matches_iff, rowSet_matches_iff, rowEncode_matches_iff, rowDecode_matches_iff]
  omega

end IllFormed

end Sys2Proof
end

section
/-! The bitfield unit: the three cases, the one formula for them, what a field read after a field write is, and what
`GET` and `SET` answer (`40_bitfield.md` R71 to R78). -/

namespace Sys2Proof.Machine

/-! ## The three cases -/

section Cases

variable {n o b : Nat}

theorem fieldCase_eq_one_iff : fieldCase o b = .one ↔ b ≤ 8 ∧ o % 8 + b ≤ 8 := by
  unfold fieldCase bitShift
  split_ifs <;> simp <;> omega

theorem fieldCase_eq_straddle_iff : fieldCase o b = .straddle ↔ b ≤ 8 ∧ 8 < o % 8 + b := by
  unfold fieldCase bitShift
  split_ifs <;> simp <;> omega

theorem fieldCase_eq_wide_iff : fieldCase o b = .wide ↔ 8 < b := by
  unfold fieldCase
  split_ifs <;> simp <;> omega

theorem byteIdx_lt (h : Legal n o b) : byteIdx o < n := by
  obtain ⟨⟨h1, -⟩, -, hend⟩ := h
  exact Nat.div_lt_of_lt_mul (by omega)

/-- Outside case ONE the field reaches into a second byte of the message. -/
theorem byteIdx_succ_lt (h : Legal n o b) (hc : fieldCase o b ≠ .one) : byteIdx o + 1 < n := by
  obtain ⟨-, haligned, hend⟩ := h
  rw [Ne, fieldCase_eq_one_iff] at hc
  have hidx : byteIdx o = o / 8 := rfl
  by_cases hb : b ≤ 8
  · have hpast : 8 < o % 8 + b := by omega
    omega
  · have hzero := haligned (by omega)
    omega

/-- In case STRADDLE each of the two bytes holds at least one bit of the field, and neither holds 8. -/
theorem loBits_hiBits_of_straddle (hc : fieldCase o b = .straddle) :
    1 ≤ loBits o ∧ loBits o ≤ 7 ∧ 1 ≤ hiBits o b ∧ hiBits o b ≤ 7 := by
  obtain ⟨hb, hpast⟩ := fieldCase_eq_straddle_iff.1 hc
  unfold hiBits loBits bitShift
  omega

end Cases

/-! ## Slices of a number -/

/-- A number is its bits from `o + b` up, the slice of `b` bits at `o`, and its bits below `o`. -/
theorem eq_high_add_slice_add_low (x o b : Nat) :
    x = (x >>> (o + b)) * 2 ^ (o + b) + (x >>> o % 2 ^ b) * 2 ^ o + x % 2 ^ o := by
  have hlow := Nat.div_add_mod x (2 ^ o)
  have hhigh := Nat.div_add_mod (x / 2 ^ o) (2 ^ b)
  rw [Nat.div_div_eq_div_mul, ← Nat.pow_add] at hhigh
  rw [Nat.shiftRight_eq_div_pow, Nat.shiftRight_eq_div_pow]
  calc x
    _ = 2 ^ o * (x / 2 ^ o) + x % 2 ^ o := hlow.symm
    _ = 2 ^ o * (2 ^ b * (x / 2 ^ (o + b)) + x / 2 ^ o % 2 ^ b) + x % 2 ^ o := by rw [hhigh]
    _ = _ := by ring

/-- A number whose bits are those of `x` but for the `b` bits at `o`, which are those of `v`, is `x` with that slice
taken out and the low `b` bits of `v` put in. -/
theorem eq_sub_slice_add_of_testBit {x y o b v : Nat}
    (h : ∀ p, y.testBit p = if o ≤ p ∧ p < o + b then v.testBit (p - o) else x.testBit p) :
    y = x - (x >>> o % 2 ^ b) * 2 ^ o + (v % 2 ^ b) * 2 ^ o := by
  have hhigh : y >>> (o + b) = x >>> (o + b) := Nat.eq_of_testBit_eq fun i => by
    rw [Nat.testBit_shiftRight, Nat.testBit_shiftRight, h, if_neg (by omega)]
  have hslice : y >>> o % 2 ^ b = v % 2 ^ b := Nat.eq_of_testBit_eq fun i => by
    rw [Nat.testBit_mod_two_pow, Nat.testBit_mod_two_pow, Nat.testBit_shiftRight, h]
    by_cases hi : i < b <;> simp [hi]
  have hlow : y % 2 ^ o = x % 2 ^ o := Nat.eq_of_testBit_eq fun i => by
    rw [Nat.testBit_mod_two_pow, Nat.testBit_mod_two_pow, h]
    by_cases hi : i < o <;> simp [hi]
  have hx := eq_high_add_slice_add_low x o b
  have hy := eq_high_add_slice_add_low y o b
  rw [hhigh, hslice, hlow] at hy
  omega

/-! ## A field of a message -/

section Field

variable {M : List Byte} {o b o' b' : Nat}

/-- `bf_get` is a slice of the message's number, in all three cases (R77). -/
theorem bfGet_eq_slice (h : Legal M.length o b) : bfGet M o b = (leNat M >>> o) % 2 ^ b :=
  Nat.eq_of_testBit_eq fun i => by
    rw [bfGet_testBit h, Nat.testBit_mod_two_pow, Nat.testBit_shiftRight, leNat_testBit]

/-- `bf_set` replaces that slice, in all three cases (R77). -/
theorem leNat_bfSet (h : Legal M.length o b) (v : Nat) :
    leNat (bfSet M o b v) = leNat M - ((leNat M >>> o) % 2 ^ b) * 2 ^ o + (v % 2 ^ b) * 2 ^ o :=
  eq_sub_slice_add_of_testBit fun p => by
    rw [leNat_testBit, leNat_testBit, bfSet_msgBit h]

theorem bfGet_lt (h : Legal M.length o b) : bfGet M o b < 2 ^ b :=
  bfGet_eq_slice h ▸ Nat.mod_lt _ (Nat.two_pow_pos b)

theorem Legal.bfSet (h : Legal M.length o b) (o' b' v : Nat) : Legal (bfSet M o' b' v).length o b := by
  rwa [bfSet_length]

/-- Read after write. -/
theorem bfGet_bfSet_same (h : Legal M.length o b) (v : Nat) : bfGet (bfSet M o b v) o b = v % 2 ^ b :=
  Nat.eq_of_testBit_eq fun i => by
    rw [bfGet_testBit (h.bfSet o b v), bfSet_msgBit h, Nat.testBit_mod_two_pow]
    by_cases hi : i < b <;> simp [hi]

/-- Non-interference: a write outside a field leaves it as it is, even in a byte they share. -/
theorem bfGet_bfSet_disjoint (h : Legal M.length o b) (h' : Legal M.length o' b') (hd : o + b ≤ o' ∨ o' + b' ≤ o)
    (v : Nat) : bfGet (bfSet M o b v) o' b' = bfGet M o' b' :=
  Nat.eq_of_testBit_eq fun i => by
    rw [bfGet_testBit (h'.bfSet o b v), bfGet_testBit h']
    by_cases hi : i < b'
    · rw [msgBit_bfSet_outside h v (by omega)]
    · simp [hi]

/-- Writes of two fields that do not overlap commute. -/
theorem bfSet_comm_of_disjoint (h : Legal M.length o b) (h' : Legal M.length o' b') (hd : o + b ≤ o' ∨ o' + b' ≤ o)
    (v w : Nat) : bfSet (bfSet M o b v) o' b' w = bfSet (bfSet M o' b' w) o b v :=
  eq_of_msgBit (by simp) fun p _ => by
    rw [bfSet_msgBit (h'.bfSet o b v), bfSet_msgBit h, bfSet_msgBit (h.bfSet o' b' w), bfSet_msgBit h']
    by_cases hp : o ≤ p ∧ p < o + b
    · have hp' : ¬ (o' ≤ p ∧ p < o' + b') := by omega
      rw [if_neg hp', if_pos hp, if_pos hp]
    · rw [if_neg hp, if_neg hp]

/-- The last write of a field counts. -/
theorem bfSet_bfSet_same (h : Legal M.length o b) (v w : Nat) : bfSet (bfSet M o b v) o b w = bfSet M o b w :=
  eq_of_msgBit (by simp) fun p _ => by
    rw [bfSet_msgBit (h.bfSet o b v), bfSet_msgBit h, bfSet_msgBit h]
    by_cases hp : o ≤ p ∧ p < o + b
    · rw [if_pos hp, if_pos hp]
    · rw [if_neg hp, if_neg hp, if_neg hp]

/-- Writing back what was read changes nothing. -/
theorem bfSet_bfGet_self (h : Legal M.length o b) : bfSet M o b (bfGet M o b) = M :=
  eq_of_msgBit (bfSet_length _ _ _ _) fun p _ => by
    rw [bfSet_msgBit h, bfGet_testBit h]
    by_cases hp : o ≤ p ∧ p < o + b
    · have hlt : p - o < b := by omega
      simp [hp, hlt]
    · rw [if_neg hp]

/-- A 16-bit read at a byte boundary is a pair of bytes, the low byte first. -/
theorem bfGet_byte_pair (M : List Byte) (k : Nat) :
    bfGet M (8 * k) 16 = (readByte M k).toNat + 256 * (readByte M (k + 1)).toNat := by
  have hcase : fieldCase (8 * k) 16 = .wide := fieldCase_eq_wide_iff.2 (by decide)
  have hlo : wideLoMask 16 = 2 ^ 8 - 1 := by decide
  have hhi : wideHiMask 16 = 2 ^ 8 - 1 := by decide
  have hbyte : ∀ x : Byte, x.toNat &&& (2 ^ 8 - 1) = x.toNat := fun x => by
    rw [Nat.and_two_pow_sub_one_eq_mod, Nat.mod_eq_of_lt x.isLt]
  simp only [bfGet, hcase, byteIdx_byte, hlo, hhi, hbyte]
  rw [Nat.or_comm, ← Nat.shiftLeft_add_eq_or_of_lt (readByte M k).isLt, Nat.shiftLeft_eq]
  omega

end Field

/-! ## GET and SET -/

section Exec

variable {s : State} {o b : Nat}

theorem exec_get_of_not_legal (m : MsgSel) (hl : ¬ Legal s.N o b) :
    exec (.get m o b) s = .next (s.respond (.faulted .preconditionError)) := by
  rw [exec, execGet_eq, if_neg hl]

theorem exec_set_of_not_legal (m : MsgSel) (v : Half) (hl : ¬ Legal s.N o b) :
    exec (.set m o b v) s = .next (s.respond (.faulted .preconditionError)) := by
  rw [exec, execSet, if_neg hl, State.raise_eq_respond]

theorem exec_get_of_legal (hi : s.IsInstance) (m : MsgSel) (hl : Legal s.N o b) :
    exec (.get m o b) s = .next (s.respond (.value ((leNat (s.msg m) >>> o) % 2 ^ b))) := by
  rw [exec, execGet_eq, if_pos hl, bfGet_eq_slice (by rwa [hi.msg_length m])]

theorem exec_set_of_legal (m : MsgSel) (v : Half) (hl : Legal s.N o b) :
    exec (.set m o b v) s = .next ((s.setMsg m (bfSet (s.msg m) o b v.toNat)).respond .done) := by
  rw [exec, execSet, if_pos hl]

end Exec

/-! ## The obligations -/

/-- Settles O19: the bits of `bf_get` are those of the slice; a `GET` word of no row is rejected. -/
theorem getReturnsTheField : Obligations.GetReturnsTheField := by
  intro s m o b hi
  refine ⟨fun hl => exec_get_of_legal hi m hl, fun hl => exec_get_of_not_legal m hl, fun w ho hz => ?_⟩
  rw [Ne, Ne, extract_eq_iff_cmdField, extract_eq_iff_cmdField] at hz
  exact exists_decode_error_of_get_word ((extract_eq_iff_cmdField w _).1 ho) hz

/-- Settles O20: the message written is that of `bf_set`, given bit by bit; a `SET` word of no row is rejected. -/
theorem setReplacesTheField : Obligations.SetReplacesTheField := by
  intro s m o b v hi
  have hlen := hi.msg_length m
  refine ⟨fun hl => ⟨bfSet (s.msg m) o b v.toNat, ?_, fun p _ => ?_, ?_⟩, fun hl => exec_set_of_not_legal m v hl,
    fun w ho hz => ?_⟩
  · rw [bfSet_length, hlen]
  · rw [bfSet_msgBit (by rwa [hlen]), BitVec.testBit_toNat]
  · rw [exec_set_of_legal m v hl, State.respond, State.setMsg_responses]
    rfl
  · rw [Ne, extract_eq_iff_cmdField] at hz
    exact exists_decode_error_of_set_word ((extract_eq_iff_cmdField w _).1 ho) hz

/-- Settles O24, bit by bit. -/
theorem fieldIsASliceOfTheMessage : Obligations.FieldIsASliceOfTheMessage :=
  fun M o b v h => ⟨bfGet_eq_slice h, leNat_bfSet h v, bfSet_length M o b v⟩

/-- Settles O25: each law from the bits that `bf_get` reads and `bf_set` writes. -/
theorem fieldLaws : Obligations.FieldLaws :=
  fun M _ _ v w h => ⟨bfGet_bfSet_same h v, bfGet_lt h,
    fun _ _ h' hd => ⟨bfGet_bfSet_disjoint h h' hd v, bfSet_comm_of_disjoint h h' hd v w⟩,
    bfSet_bfSet_same h v w, bfSet_bfGet_self h, fun k _ => ⟨bfGet_byte M k, bfSet_byte M k v⟩,
    fun k _ => bfGet_byte_pair M k⟩

/-- Settles O26, by the condition of each case. -/
theorem fieldCasesAreExact : Obligations.FieldCasesAreExact := by
  intro n o b h
  have ⟨⟨_, h16⟩, haligned, _⟩ := h
  refine ⟨fieldCase_eq_one_iff, fieldCase_eq_straddle_iff, ?_, byteIdx_lt h,
    fun hc => Nat.le_sub_one_of_lt (byteIdx_succ_lt h hc), loBits_hiBits_of_straddle,
    fun hc => haligned (fieldCase_eq_wide_iff.1 hc)⟩
  rw [fieldCase_eq_wide_iff]
  exact ⟨fun hb => ⟨hb, h16⟩, fun hb => hb.1⟩

end Sys2Proof.Machine
end

section
/-! The running sum of R105 is the checksum of the accepted bytes at every `DECODE`, so comparing it with the last byte
is the comparison of R95 (`41_framing.md` R91, R94, R105). -/

namespace Sys2Proof.Machine

section RunningSum

variable {s t : State} {acc b : Byte}

/-- `DECODE` with the running sum takes the row that `DECODE` takes: at the frame's end the sum is the checksum of the
bytes before the last. -/
theorem DecodeRow.execDecodeRunning_eq (hr : DecodeRow b s t) (ha : RunningSumAgrees s acc) :
    execDecodeRunning acc b s = .next t := by
  cases hr with
  | start hp hb | noise hp hb => simp [execDecodeRunning, hp, decodeIdle, hb]
  | inside hp hc => simp [execDecodeRunning, hp, hc]
  | complete hp hc hsum | badSum hp hc hsum =>
    have hcN : s.cursor.toNat = s.N + 1 := Nat.succ.inj hc
    have hlt : s.cursor.toNat < s.frameSize := hc ▸ Nat.lt_succ_self _
    have hacc : acc = checksum (s.buf.take (s.N + 1)) := hcN ▸ ha hp
    simp [execDecodeRunning, hp, hc, hlt, hacc, hsum]

/-- After a row that leaves a frame in flight, the updated sum is the checksum of the bytes accepted so far. -/
theorem DecodeRow.runningSumAgrees (hi : s.IsInstance) (hr : DecodeRow b s t) (ha : RunningSumAgrees s acc) :
    RunningSumAgrees t (runningSum s acc b) := by
  have hlen : s.buf.length = s.frameSize := hi.2.2.2
  intro hpt
  cases hr with
  | start hp hb =>
    subst hb
    obtain ⟨x, xs, hbuf⟩ : ∃ x xs, s.buf = x :: xs := List.exists_cons_of_length_eq_add_one hlen
    simp [runningSum, hp, hbuf, writeByte, checksum]
  | noise hp => cases hp.symm.trans hpt
  | inside hp hc =>
    have hlt : s.cursor.toNat < s.frameSize := Nat.lt_of_succ_lt hc
    calc runningSum s acc b
      _ = acc + b := by simp [runningSum, hp, hc]
      _ = checksum (s.buf.take s.cursor.toNat) + b := by rw [ha hp]
      _ = checksum ((s.storeByte b).buf.take (s.storeByte b).cursor.toNat) := by
        rw [State.storeByte_cursor_toNat hi hlt, State.storeByte_take (hlen ▸ hlt), checksum_append]
  | complete | badSum => cases hpt

end RunningSum

/-- Settles O52: the running sum decides for the same row of R94, and each row keeps it the checksum of the accepted
bytes. -/
theorem runningChecksumIsEquivalent : Obligations.RunningChecksumIsEquivalent := by
  intro s acc b h ha
  obtain ⟨t, ht⟩ := exec_next h (.decode b)
  have hrow := DecodeRow.of_exec h.isInstance ht
  refine ⟨(hrow.execDecodeRunning_eq ha).trans ht.symm, fun u hu => ?_⟩
  exact (DecodeRow.of_exec h.isInstance hu).runningSumAgrees h.isInstance ha

end Sys2Proof.Machine
end

section
/-! The checksum as a sum of bytes that wraps at every addition, and the frame that `ENCODE` emits (`41_framing.md` R91
to R93). -/

namespace Sys2Proof

/-- An `ENCODE` word with a non-zero field that its row has at 0 is no operation (R54, R93). -/
theorem exists_decode_error_of_encode_word {w : CmdWord} (ho : opField w = 3)
    (hz : rsvField w ≠ 0 ∨ cmdField w 0 32 ≠ 0) : ∃ r, decode w = .error r := by
  have hlow : cmdField w 0 32 = bitsizeField w * 2 ^ 27 + offsetField w * 2 ^ 16 + wdataField w := by
    unfold bitsizeField offsetField wdataField cmdField
    omega
  rw [exists_decode_error_iff, rowGet_matches_iff, rowSet_matches_iff, rowEncode_matches_iff, rowDecode_matches_iff]
  omega

end Sys2Proof

namespace Sys2Proof.Machine

/-! ## The checksum -/

section Checksum

variable {l : List Byte} {k : Nat} {x : Byte}

/-- Reducing the sum once modulo 256 is wrapping at every addition (R91). -/
theorem checksum_eq_sum (l : List Byte) : checksum l = l.sum := by
  induction l with
  | nil => rfl
  | cons b l ih => rw [checksum_cons, ih, List.sum_cons]

theorem checksum_eq_ofNat_mod (l : List Byte) :
    checksum l = BitVec.ofNat 8 ((l.map BitVec.toNat).sum % 256) :=
  BitVec.eq_of_toNat_eq (Nat.mod_mod _ _).symm

theorem readByte_of_lt (hk : k < l.length) : readByte l k = l[k] := by
  simp [readByte, hk]

/-- Replacing a byte moves the checksum by the difference (R91). -/
theorem checksum_set (hk : k < l.length) (x : Byte) : checksum (l.set k x) = checksum l - readByte l k + x := by
  rw [checksum_eq_sum, checksum_eq_sum, List.sum_set', dif_pos hk, readByte_of_lt hk, ← add_assoc, ← sub_eq_add_neg]

/-- A different byte gives a different checksum (R91). -/
theorem checksum_set_ne (hk : k < l.length) (hx : x ≠ readByte l k) : checksum (l.set k x) ≠ checksum l := by
  intro heq
  rw [checksum_set hk, sub_add_eq_add_sub, sub_eq_iff_eq_add] at heq
  exact hx (add_left_cancel heq)

theorem checksum_marker_zeros (n : Nat) : checksum (Config.marker :: List.replicate n 0) = Config.marker := by
  rw [checksum_eq_sum, List.sum_cons, List.sum_replicate, smul_zero, add_zero]

theorem sum_toNat_le (l : List Byte) : (l.map BitVec.toNat).sum ≤ l.length * 255 := by
  have hbyte : ∀ n ∈ l.map BitVec.toNat, n ≤ 255 := by
    intro n hn
    obtain ⟨b, -, rfl⟩ := List.mem_map.1 hn
    exact Nat.le_of_lt_succ b.isLt
  simpa using List.sum_le_card_nsmul _ 255 hbyte

end Checksum

/-! ## The frame of a message -/

section EncodeFrame

variable {M : List Byte}

/-- Behind the marker a frame carries the message verbatim (R92). -/
theorem encodeFrame_getElem?_payload {k : Nat} (h1 : 1 ≤ k) (hk : k ≤ M.length) : (encodeFrame M)[k]? = M[k - 1]? := by
  obtain ⟨j, rfl⟩ := Nat.exists_eq_add_of_le' h1
  rw [encodeFrame, List.getElem?_cons_succ, List.getElem?_append_left hk, Nat.add_sub_cancel]

theorem encodeFrame_getElem?_last : (encodeFrame M)[M.length + 1]? = some (checksum (Config.marker :: M)) :=
  List.getElem?_concat_length

end EncodeFrame

/-! ## The obligations -/

/-- Settles O29, each property from the checksum as a sum of bytes. -/
theorem checksumProperties : Obligations.ChecksumProperties := fun l =>
  ⟨(checksum_eq_sum l).trans List.sum_eq_foldl, fun _ x hk => checksum_set hk x, fun _ _ hk hx => checksum_set_ne hk hx,
    fun _ hperm => (checksum_perm hperm).symm, checksum_marker_zeros,
    fun hl => (sum_toNat_le l).trans (Nat.mul_le_mul_right 255 hl)⟩

/-- Settles O28: the frame is `encodeFrame` of the register; an `ENCODE` word of no row is rejected. -/
theorem encodeEmitsTheFrame : Obligations.EncodeEmitsTheFrame := by
  refine ⟨fun s m hi => ?_, fun w ho hz => ?_⟩
  · have hlen := hi.msg_length m
    rw [← hlen]
    refine ⟨encodeFrame (s.msg m), rfl, encodeFrame_length _, rfl, fun _ => encodeFrame_getElem?_payload, ?_⟩
    rw [encodeFrame_getElem?_last, checksum_eq_ofNat_mod]
    rfl
  · rw [Ne, Ne, extract_eq_iff_cmdField, extract_eq_iff_cmdField] at hz
    exact exists_decode_error_of_encode_word ((extract_eq_iff_cmdField w _).1 ho) hz

end Sys2Proof.Machine
end

section
/-! One `DECODE`: the whole next state of each of the transitions T1 to T5, and that one of them applies
(`41_framing.md` R94 to R100). -/

namespace Sys2Proof.Machine

section Decode

variable {s : State} {b : Byte}

/-- T1 needs no invariant: the parser in `Idle` looks at nothing but the byte (R96). -/
theorem exec_decode_marker_of_idle (hp : s.pstate = .idle) :
    exec (.decode Config.marker) s = .next ((s.acceptMarker Config.marker).respond .notComplete) := by
  rw [exec, execDecode, hp]
  rfl

/-- T2: the cursor that the transition clears is 0 already (R97). -/
theorem exec_decode_noise (h : s.Inv) (hp : s.pstate = .idle) (hb : b ≠ Config.marker) :
    exec (.decode b) s = .next (s.respond (.error .framing)) := by
  obtain ⟨hi, hidle, -⟩ := h
  rw [(DecodeRow.noise hp hb).exec_eq hi, ← hidle hp]

/-- Counting a byte, with the cursor written as a number. -/
theorem cursor_add_one (c : BitVec 8) : c + 1 = BitVec.ofNat 8 (c.toNat + 1) := by
  rw [BitVec.ofNat_add, BitVec.ofNat_toNat, BitVec.setWidth_eq]
  rfl

end Decode

/-! ## The obligations -/

/-- Settles O30, by the equation of T1. -/
theorem decodeMarkerInIdle : Obligations.DecodeMarkerInIdle :=
  fun _ => exec_decode_marker_of_idle

/-- Settles O31, by the equation of T2. -/
theorem decodeNonMarkerInIdle : Obligations.DecodeNonMarkerInIdle :=
  fun _ _ => exec_decode_noise

/-- Settles O32, by row T3. -/
theorem decodeInsideAFrame : Obligations.DecodeInsideAFrame := by
  intro s b hi hp hc
  rw [(DecodeRow.inside hp hc).exec_eq hi, ← cursor_add_one]
  rfl

/-- Settles O33, by row T4: the message delivered is what stands behind the marker. -/
theorem decodeCompletesAValidFrame : Obligations.DecodeCompletesAValidFrame := by
  intro s b hi hp hc hb
  have hcN : s.cursor.toNat = s.N + 1 := Nat.succ.inj hc
  have hlen : s.buf.length = s.N + 2 := hi.2.2.2
  rw [← checksum_eq_ofNat_mod] at hb
  refine ⟨(s.buf.take (s.N + 1)).drop 1, by simp [hlen], fun i hiN => ?_, ?_⟩
  · rw [List.getElem?_drop, Nat.add_comm 1 i, List.getElem?_take_of_lt (Nat.succ_lt_succ hiN)]
  · rw [(DecodeRow.complete hp hc hb.symm).exec_eq hi, State.storeByte_deliver hcN rfl, State.storeByte, hcN]
    rfl

/-- Settles O34, by row T5. -/
theorem decodeRejectsABadChecksum : Obligations.DecodeRejectsABadChecksum := by
  intro s b hi hp hc hb
  have hcN : s.cursor.toNat = s.N + 1 := Nat.succ.inj hc
  rw [← checksum_eq_ofNat_mod] at hb
  rw [(DecodeRow.badSum hp hc hb.symm).exec_eq hi, State.storeByte, hcN]
  rfl

/-- Settles O35: `DECODE` answers, and what it answers is a row. -/
theorem decodeTakesOneOfTheFiveTransitions : Obligations.DecodeTakesOneOfTheFiveTransitions := by
  intro s b h
  obtain ⟨t, ht⟩ := exec_next h (.decode b)
  have hinv := exec_keeps_inv h ht
  cases DecodeRow.of_exec h.isInstance ht with
  | start hp hb => exact ⟨_, _, ht, hinv, rfl, rfl, .inl ⟨hp, hb, rfl, rfl, rfl, rfl⟩⟩
  | noise hp hb => exact ⟨_, _, ht, hinv, rfl, rfl, .inr (.inl ⟨hp, hb, hp, rfl, rfl, rfl⟩)⟩
  | inside hp hc =>
    have hcur := State.storeByte_cursor_toNat h.isInstance (h.cursor_lt hp) b
    exact ⟨_, _, ht, hinv, rfl, rfl, .inr (.inr (.inl ⟨hp, hc, hp, hcur, rfl, rfl⟩))⟩
  | complete hp hc hsum =>
    exact ⟨_, _, ht, hinv, rfl, rfl, .inr (.inr (.inr (.inl ⟨hp, hc, hsum, rfl, rfl, rfl, rfl⟩)))⟩
  | badSum hp hc hsum =>
    exact ⟨_, _, ht, hinv, rfl, rfl, .inr (.inr (.inr (.inr ⟨hp, hc, hsum, rfl, rfl, rfl, rfl⟩)))⟩

end Sys2Proof.Machine
end

section
/-! Lists of bytes fed from `Idle` or inside a frame: noise, a frame up to its last byte, a frame that fails its
checksum, and that a frame in flight ends (`41_framing.md` R97, R101 to R104, R106; `60_exceptions.md` R139). -/

namespace Sys2Proof.Machine

section Sequences

variable {s t : State} {b last : Byte}

theorem execAll_cons_of_exec {i : Instr} (hx : exec i s = .next t) (is : List Instr) :
    execAll (i :: is) s = execAll is t := by
  rw [execAll, hx]

/-- Every list of operations keeps the invariants and the payload size. -/
theorem execAll_keeps_inv {ops : List Instr} (h : s.Inv) (hx : execAll ops s = .next t) : t.Inv ∧ t.N = s.N := by
  induction ops generalizing s with
  | nil =>
    cases hx
    exact ⟨h, rfl⟩
  | cons i is ih =>
    obtain ⟨u, hu, hx⟩ := execAll_cons_eq_next_iff.1 hx
    obtain ⟨hinv, hN⟩ := ih (exec_keeps_inv h hu) hx
    exact ⟨hinv, hN.trans (exec_keeps_instance h.isInstance hu).2⟩

/-! ## From Idle -/

/-- Bytes other than the marker are each answered with a framing error and change nothing (R97). -/
theorem execAll_decode_noise {l : List Byte} (h : s.Inv) (hp : s.pstate = .idle) (hl : ∀ b ∈ l, b ≠ Config.marker) :
    execAll (l.map .decode) s =
      .next { s with responses := s.responses ++ List.replicate l.length (.error .framing) } := by
  induction l generalizing s with
  | nil => simp [execAll]
  | cons b l ih =>
    obtain ⟨hb, hl⟩ := List.forall_mem_cons.1 hl
    have hx := exec_decode_noise h hp hb
    rw [List.map_cons, execAll_cons_of_exec hx, ih (exec_keeps_inv h hx) hp hl, State.respond_responses,
      List.append_assoc, List.singleton_append, ← List.replicate_succ]
    rfl

/-- The marker and at most `N` further bytes, whatever they are, stand in a frame in flight (R101). -/
theorem execAll_decode_marker_cons {body : List Byte} (hi : s.IsInstance) (hp : s.pstate = .idle)
    (hl : body.length ≤ s.N) :
    execAll ((Config.marker :: body).map .decode) s = .next (s.inFrame (Config.marker :: body)) := by
  rw [List.map_cons, execAll_cons_of_exec (exec_decode_marker hi hp)]
  exact execAll_decode_inFrame body hi (by simp [State.frameSize]; omega)

/-- The last byte of a frame fills the buffer; back in `Idle` the frame it holds and the answers are all that is left of
it (R100). -/
theorem State.inFrame_storeByte_enterIdle {body : List Byte} (h : s.Inv) (hp : s.pstate = .idle)
    (hl : body.length = s.N) (last : Byte) :
    ((s.inFrame (Config.marker :: body)).storeByte last).enterIdle = { s with
      buf := Config.marker :: (body ++ [last])
      responses := s.responses ++ List.replicate (s.N + 1) .notComplete } := by
  obtain ⟨hi, hidle, -⟩ := h
  have hlen : (Config.marker :: body).length = s.N + 1 := congrArg (· + 1) hl
  have hend : s.buf.drop (s.N + 2) = [] := List.drop_eq_nil_of_le (Nat.le_of_eq hi.2.2.2)
  have hlt : (Config.marker :: body).length < s.frameSize := hlen ▸ Nat.lt_succ_self _
  have hbuf := State.inFrame_storeByte_buf hi hlt last
  rw [hlen, hend, State.storeByte_buf] at hbuf
  rw [State.storeByte, hbuf]
  simp [State.inFrame, State.enterIdle, hp, hidle hp, hl]

/-- T5: any byte but the checksum of the bytes before it ends a frame begun in `Idle` with an error, and the message
register keeps its content (R100). -/
theorem exec_decode_badSum {body : List Byte} (h : s.Inv) (hp : s.pstate = .idle) (hl : body.length = s.N)
    (hlast : last ≠ checksum (Config.marker :: body)) :
    exec (.decode last) (s.inFrame (Config.marker :: body)) = .next { s with
      buf := Config.marker :: (body ++ [last])
      responses := s.responses ++ List.replicate (s.N + 1) .notComplete ++ [.error .checksum] } := by
  have hi := h.isInstance
  have hlen : (Config.marker :: body).length = s.N + 1 := congrArg (· + 1) hl
  have hle : (Config.marker :: body).length ≤ s.frameSize := hlen ▸ Nat.le_succ _
  have hcur := (State.inFrame_cursor_toNat hi hle).trans hlen
  have htake : (s.inFrame (Config.marker :: body)).buf.take (s.N + 1) = Config.marker :: body :=
    hlen ▸ State.inFrame_take
  have hrow := DecodeRow.badSum rfl (congrArg (· + 1) hcur) (htake.symm ▸ hlast.symm)
  rw [hrow.exec_eq (State.inFrame_isInstance hi hle), State.inFrame_storeByte_enterIdle h hp hl]
  rfl

/-- A frame whose last byte is not the checksum ends in `Idle` with a checksum error, and only `buf` has changed
(R101, R104). -/
theorem execAll_decode_badFrame {body : List Byte} (h : s.Inv) (hp : s.pstate = .idle) (hl : body.length = s.N)
    (hlast : last ≠ checksum (Config.marker :: body)) :
    execAll ((Config.marker :: (body ++ [last])).map .decode) s = .next { s with
      buf := Config.marker :: (body ++ [last])
      responses := s.responses ++ List.replicate (s.N + 1) .notComplete ++ [.error .checksum] } := by
  rw [← List.cons_append, List.map_append, execAll_append _ _ (execAll_decode_marker_cons h.isInstance hp hl.le)]
  exact execAll_cons_eq_next_iff.2 ⟨_, exec_decode_badSum h hp hl hlast, rfl⟩

/-! ## Inside a frame -/

/-- The bytes a frame in flight still lacks end it, whatever they are: in `Idle`, with `Complete` or a checksum error
(R101, R139). -/
theorem execAll_decode_ends {l : List Byte} (h : s.Inv) (hp : s.pstate = .accumulating)
    (hl : l.length + s.cursor.toNat = s.frameSize) :
    ∃ t r, execAll (l.map .decode) s = .next t ∧ t.pstate = .idle ∧ t.lastResponse = some r ∧
      (r = .frameComplete ∨ r = .error .checksum) := by
  induction l generalizing s with
  | nil =>
    have hlt := h.cursor_lt hp
    rw [List.length_nil] at hl
    omega
  | cons b l ih =>
    rw [List.length_cons] at hl
    obtain ⟨u, hu⟩ := exec_next h (.decode b)
    rw [List.map_cons, execAll_cons_of_exec hu]
    have hinv := exec_keeps_inv h hu
    have hnil : s.cursor.toNat + 1 = s.frameSize → l = [] := fun hc => List.eq_nil_of_length_eq_zero (by omega)
    cases DecodeRow.of_exec h.isInstance hu with
    | start hp' | noise hp' => cases hp.symm.trans hp'
    | inside hp hc =>
      refine ih hinv hp ?_
      rw [State.respond_cursor, State.storeByte_cursor_toNat h.isInstance (h.cursor_lt hp), State.respond_frameSize,
        State.storeByte_frameSize]
      omega
    | complete hp hc =>
      rw [hnil hc]
      exact ⟨_, _, rfl, rfl, List.getLast?_concat, .inl rfl⟩
    | badSum hp hc =>
      rw [hnil hc]
      exact ⟨_, _, rfl, rfl, List.getLast?_concat, .inr rfl⟩

end Sequences

/-! ## The obligations -/

/-- Settles O39, by induction on the noise. -/
theorem noiseInIdleChangesNothing : Obligations.NoiseInIdleChangesNothing :=
  fun _ _ => execAll_decode_noise

/-- Settles O40: up to its last byte the frame is in flight, and the last byte is its checksum or is not. -/
theorem aFrameTakesExactlyItsLength : Obligations.AFrameTakesExactlyItsLength := by
  intro s body h hp
  refine ⟨fun hl => ?_, fun hl last => ?_⟩
  · have hle : (Config.marker :: body).length ≤ s.frameSize := by simp [State.frameSize]; omega
    exact ⟨_, execAll_decode_marker_cons h.isInstance hp hl, rfl, State.inFrame_cursor_toNat h.isInstance hle,
      State.inFrame_take (bs := Config.marker :: body), List.drop_left, rfl, rfl, rfl⟩
  · by_cases hlast : last = checksum (0xAA :: body)
    · rw [if_pos hlast, if_pos hlast, hlast]
      exact execAll_decode_encodeFrame h hp hl
    · rw [if_neg hlast, if_neg hlast]
      exact execAll_decode_badFrame h hp hl hlast

/-- Settles O41, by the run over the frame of a message. -/
theorem frameRoundTrip : Obligations.FrameRoundTrip :=
  fun _ _ => execAll_decode_encodeFrame

/-- Settles O42: the response of `ENCODE` carries the frame of the register, and the response is all it adds. -/
theorem emittedFrameFedBackArrives : Obligations.EmittedFrameFedBackArrives := by
  intro s m h hp
  have hx : exec (.encode m) s = .next (s.respond (.emitted (encodeFrame (s.msg m)))) := rfl
  have hrun := execAll_decode_encodeFrame (exec_keeps_inv h hx) hp (h.isInstance.msg_length m)
  exact ⟨_, _, hx, rfl, _, hrun, rfl, rfl, hp, congrArg _ List.getLast?_concat⟩

/-- Settles O43: the noise leaves the block in `Idle`, where the frame is received. -/
theorem resynchronisationAfterNoise : Obligations.ResynchronisationAfterNoise := by
  intro s noise M h hp hnoise hM
  have hx := execAll_decode_noise h hp hnoise
  rw [List.map_append, execAll_append _ _ hx]
  exact execAll_decode_encodeFrame (execAll_keeps_inv h hx).1 hp hM

/-- Settles O44: a wrong last byte is not the checksum, a wrong payload byte changes the checksum, and a wrong first
byte is noise. -/
theorem oneWrongByteIsDetected : Obligations.OneWrongByteIsDetected := by
  intro s M x h hp hM
  refine ⟨fun hx => ?_, fun k hk hx => ?_, fun hx => ?_⟩
  · exact ⟨_, execAll_decode_badFrame h hp hM hx, rfl, hp, List.getLast?_concat⟩
  · have hne : checksum (Config.marker :: M) ≠ checksum (Config.marker :: M.set k x) := by
      rw [checksum_cons, checksum_cons]
      exact fun heq => checksum_set_ne (hM ▸ hk) hx (add_left_cancel heq).symm
    exact ⟨_, execAll_decode_badFrame h hp (List.length_set.trans hM) hne, rfl, hp, List.getLast?_concat⟩
  · exact execAll_cons_of_exec (exec_decode_noise h hp hx) _

/-- Settles O46, by induction on the bytes the frame lacks. -/
theorem aFrameInFlightAlwaysEnds : Obligations.AFrameInFlightAlwaysEnds := by
  intro s l h hp hl
  obtain ⟨t, r, hx, hidle, hlast, hr⟩ := execAll_decode_ends h hp hl
  exact ⟨t, r, hx, hidle, hlast, hr.imp_left (congrArg Response.status)⟩

/-- Settles O47: the list without its `DECODE`s is empty, so the parser stays, and `DECODE` reads the parser only. -/
theorem aStalledFrameWaits : Obligations.AStalledFrameWaits := by
  intro s ops h hops
  obtain ⟨t, s', ht, hs', hpar, hN⟩ := execAll_filter_isDecode ops h h rfl rfl
  rw [List.filter_eq_nil_iff.2 fun i hi => by simp [hops i hi]] at hs'
  cases hs'
  refine ⟨t, ht, hpar.symm, hN.symm, fun b => ?_⟩
  obtain ⟨v, hv⟩ := exec_next h (.decode b)
  obtain ⟨u, r, hrow, hpu, hrv, hru⟩ := (DecodeRow.of_exec h.isInstance hv).sameParser hpar.symm hN.symm
  refine ⟨u, v, hrow.exec_eq (execAll_keeps_inv h ht).1.isInstance, hv, hpu, ?_⟩
  rw [State.lastResponse, State.lastResponse, hrv, hru, List.getLast?_concat, List.getLast?_concat]

end Sys2Proof.Machine
end

section
/-! What the Router hears of bytes fed in arrival order (`42_processor_host.md` R121, R123). -/

namespace Sys2Proof.Machine

section Feed

variable {s t : State} {r : Response} {b : Byte}

/-- A byte answered with another status than `Complete` hands nothing to the Router (R121). -/
theorem feed_of_not_complete (hx : exec (.decode b) s = .next t) (hr : t.lastResponse = some r)
    (hs : r.status ≠ .complete) : feed b s = (.next t, none) := by
  simp [feed, hx, hr, hs]

/-- A byte answered with `Complete` hands over the message received (R121). -/
theorem feed_of_complete (hx : exec (.decode b) s = .next t) (hr : t.lastResponse = some r)
    (hs : r.status = .complete) : feed b s = (.next t, some t.rx) := by
  simp [feed, hx, hr, hs]

theorem feedAll_cons_of_feed {now : Option (List Byte)} (hf : feed b s = (.next t, now)) (bs : List Byte) :
    feedAll (b :: bs) s = ((feedAll bs t).1, now.toList ++ (feedAll bs t).2) := by
  rw [feedAll, hf]

/-- INVERSION of `feedAll`: where all bytes were taken, the first one was, and the messages heard of it come first. -/
theorem feedAll_cons_cases {bs : List Byte} {heard : List (List Byte)} (hx : feedAll (b :: bs) s = (.next t, heard)) :
    ∃ u now later, feed b s = (.next u, now) ∧ feedAll bs u = (.next t, later) ∧ heard = now.toList ++ later := by
  rw [feedAll] at hx
  split at hx
  · obtain ⟨hend, hheard⟩ := Prod.mk.inj hx
    exact ⟨_, _, _, ‹_›, Prod.ext hend rfl, hheard.symm⟩
  · cases hx
  · cases hx

/-- Bytes fed in two parts: the messages of the first part come first. -/
theorem feedAll_append {bs : List Byte} {heard : List (List Byte)} (hx : feedAll bs s = (.next t, heard))
    (cs : List Byte) : feedAll (bs ++ cs) s = ((feedAll cs t).1, heard ++ (feedAll cs t).2) := by
  induction bs generalizing s heard with
  | nil =>
    cases hx
    rfl
  | cons b bs ih =>
    obtain ⟨u, now, later, hu, hbs, rfl⟩ := feedAll_cons_cases hx
    rw [List.cons_append, feedAll_cons_of_feed hu, ih hbs, List.append_assoc]

/-- Bytes none of which is answered with `Complete` hand nothing to the Router. -/
theorem feedAll_of_not_complete {l : List Byte} {given : List Response} (hi : s.IsInstance)
    (hx : execAll (l.map .decode) s = .next t) (hgiven : t.responses = s.responses ++ given)
    (hs : ∀ r ∈ given, r.status ≠ .complete) : feedAll l s = (.next t, []) := by
  induction l generalizing s given with
  | nil =>
    cases hx
    rfl
  | cons b l ih =>
    obtain ⟨u, hu, hx⟩ := execAll_cons_eq_next_iff.1 hx
    obtain ⟨r, hr⟩ := exec_one_response hi hu
    have hiu := (exec_keeps_instance hi hu).1
    obtain ⟨later, hlater, -⟩ := execAll_withResponses _ hiu hx
    obtain rfl : given = r :: later := by simpa [hlater, hr] using hgiven.symm
    obtain ⟨hsr, hslater⟩ := List.forall_mem_cons.1 hs
    have hlast : u.lastResponse = some r := by rw [State.lastResponse, hr, List.getLast?_concat]
    rw [feedAll_cons_of_feed (feed_of_not_complete hu hlast hsr), ih hiu hx hlater hslater]
    rfl

/-- Of the frame of a message the Router hears that message, on the last byte (R102, R121). -/
theorem feedAll_encodeFrame {M : List Byte} (h : s.Inv) (hp : s.pstate = .idle) (hM : M.length = s.N) :
    ∃ t, feedAll (encodeFrame M) s = (.next t, [M]) ∧ t.Inv ∧ t.pstate = .idle ∧ t.N = s.N := by
  have hpre := feedAll_of_not_complete h.isInstance (execAll_decode_marker_cons h.isInstance hp hM.le) rfl
    (fun r hr => by simp [List.eq_of_mem_replicate hr, Response.notComplete])
  have hlast := feed_of_complete (exec_decode_checksum h hp hM) List.getLast?_concat rfl
  obtain ⟨hinv, hN⟩ := execAll_keeps_inv h (execAll_decode_encodeFrame h hp hM)
  refine ⟨_, ?_, hinv, hp, hN⟩
  rw [encodeFrame, ← List.cons_append, feedAll_append hpre, feedAll_cons_of_feed hlast]
  rfl

end Feed

/-- Settles O55, by induction on the messages. -/
theorem routerHearsTheMessagesSent : Obligations.RouterHearsTheMessagesSent := by
  intro Ms
  induction Ms with
  | nil => exact fun s _ hp _ => ⟨s, rfl, hp⟩
  | cons M Ms ih =>
    intro s h hp hMs
    obtain ⟨hM, hMs⟩ := List.forall_mem_cons.1 hMs
    obtain ⟨u, hu, hinv, hidle, hN⟩ := feedAll_encodeFrame h hp hM
    obtain ⟨t, ht, hend⟩ := ih u hinv hidle (hN ▸ hMs)
    refine ⟨t, ?_, hend⟩
    rw [List.flatMap_cons, feedAll_append hu, ht, List.singleton_append]

end Sys2Proof.Machine
end

section
/-! The block as the host sees it: every command word is answered and the block is ready for the next; what `FEED` and
`SEND` hand to the Router and the Transport (`42_processor_host.md` R121, R122, R125). -/

namespace Sys2Proof.Machine

section Answer

variable {s t : State}

/-- An operation takes nothing from what the host does next (log entry 3). -/
theorem exec_keeps_pending {i : Instr} (hx : exec i s = .next t) : t.pending = s.pending := by
  have hsame : exec i s = outcomeWithPending s.pending (exec i s) := exec_withPending i s s.pending
  rw [hx, outcomeWithPending] at hsame
  rw [Host.Outcome.next.inj hsame]

/-- Every command word is answered with one response, the rest of the host's list is left, and the block is ready for
the next word (R125, R135, R137). -/
theorem issue_answers (h : s.Inv) (w : CmdWord) :
    ∃ t r, issue w s = .next t ∧ t.pending = s.pending ∧ t.responses = s.responses ++ [r] ∧ t.Inv := by
  match hd : decode w with
  | .ok i =>
    rw [issue_of_decode_ok hd]
    obtain ⟨t, ht⟩ := exec_next h i
    obtain ⟨r, hr⟩ := exec_one_response h.isInstance ht
    exact ⟨t, r, ht, exec_keeps_pending ht, hr, exec_keeps_inv h ht⟩
  | .error _ => exact ⟨_, _, issue_of_decode_error hd s, rfl, rfl, h⟩

theorem lastResponse_of_responses {past : List Response} {r : Response} (hr : t.responses = past ++ [r]) :
    t.lastResponse = some r := by
  rw [State.lastResponse, hr, List.getLast?_concat]

end Answer

/-! ## The obligations -/

/-- Settles O9: the step is the answer to the word, whether it decodes or not. -/
theorem everyCommandIsAnswered : Obligations.EveryCommandIsAnswered := by
  intro s w rest h hp
  obtain ⟨t, r, ht, hrest, hr, hinv⟩ := issue_answers (s := { s with pending := rest }) h w
  refine ⟨t, (step_of_pending_command h.isInstance hp).trans ht, hrest, ?_, hinv⟩
  rw [hr, List.length_append, List.length_singleton]

/-- Settles O53, by whether the one response of the `DECODE` is `Complete`. -/
theorem feedCallsTheRouterOnComplete : Obligations.FeedCallsTheRouterOnComplete := by
  intro s b h
  obtain ⟨t, ht⟩ := exec_next h (.decode b)
  obtain ⟨r, hr⟩ := exec_one_response h.isInstance ht
  have hlast := lastResponse_of_responses hr
  refine ⟨t, r, ht, hr, ?_⟩
  by_cases hs : r.status = .complete
  · rw [feed_of_complete ht hlast hs]
    exact ⟨rfl, fun _ => rfl, fun hne => absurd hs hne⟩
  · rw [feed_of_not_complete ht hlast hs]
    exact ⟨rfl, fun hc => absurd hc hs, fun _ => rfl⟩

/-- Settles O54: the last response after an `ENCODE` carries the frame of the register, and that is what `SEND` hands
over. -/
theorem sendHandsOverTheFrame : Obligations.SendHandsOverTheFrame := by
  intro s m hi
  have hframe : (s.respond (.emitted (encodeFrame (s.msg m)))).lastResponse.map Response.frame =
      some (encodeFrame (s.msg m)) := by
    rw [lastResponse_of_responses (State.respond_responses s _)]
    rfl
  refine ⟨_, encodeFrame (s.msg m), rfl, hframe, rfl, hframe, ?_⟩
  rw [encodeFrame_length, hi.msg_length m]

end Sys2Proof.Machine
end

section
/-! Faults and error causes: which checks a command word meets in which order, that a word which fails one is answered
and changes nothing, and what a `DECODE` that answers `Error` leaves behind (`60_exceptions.md` R133 to R139). -/

namespace Sys2Proof.Machine

/-! ## The checks of R137 -/

/-- The fault of an access to `bitsize` bits from bit `offset` in a block of payload size `n` (R72, R134). -/
def accessFault (n offset bitsize : Nat) : FaultCode := if Legal n offset bitsize then .none else .preconditionError

/-- The fault of an operation in a block of payload size `n`: only `GET` and `SET` have operands to check (R134). -/
def operandFault (n : Nat) : Instr → FaultCode
  | .get _ offset bitsize => accessFault n offset bitsize
  | .set _ offset bitsize _ => accessFault n offset bitsize
  | .encode _ => .none
  | .decode _ => .none

/-- The fault of a word in a block of payload size `n`: well-formedness is checked before the operands (R137). -/
def wordFault (n : Nat) (w : CmdWord) : FaultCode :=
  match decode w with
  | .ok i => operandFault n i
  | .error _ => .illegalCommand

section WordFault

variable {n o b : Nat} {w : CmdWord}

theorem accessFault_eq_none_iff : accessFault n o b = .none ↔ Legal n o b := by
  by_cases h : Legal n o b
  · exact iff_of_true (if_pos h) h
  · exact iff_of_false (by rw [accessFault, if_neg h]; nofun) h

theorem accessFault_eq_preconditionError_iff : accessFault n o b = .preconditionError ↔ ¬ Legal n o b := by
  by_cases h : Legal n o b
  · exact iff_of_false (by rw [accessFault, if_pos h]; nofun) (not_not.2 h)
  · exact iff_of_true (if_neg h) h

theorem wordFault_of_decode_ok {i : Instr} (h : decode w = .ok i) : wordFault n w = operandFault n i := by
  rw [wordFault, h]

theorem wordFault_of_decode_error {r : Reject} (h : decode w = .error r) : wordFault n w = .illegalCommand := by
  rw [wordFault, h]

theorem operandFault_ne_illegalCommand (i : Instr) : operandFault n i ≠ .illegalCommand := by
  cases i with
  | get | set =>
    rw [operandFault, accessFault]
    split <;> nofun
  | encode | decode => nofun

/-- The first check fails exactly on the words of no row (R135). -/
theorem wordFault_eq_illegalCommand_iff : wordFault n w = .illegalCommand ↔
    ¬ rowGet.Matches w ∧ ¬ rowSet.Matches w ∧ ¬ rowEncode.Matches w ∧ ¬ rowDecode.Matches w := by
  rw [← exists_decode_error_iff]
  match hd : decode w with
  | .ok i => simp [wordFault_of_decode_ok hd, operandFault_ne_illegalCommand]
  | .error r => simp [wordFault_of_decode_error hd]

theorem wordFault_of_rowGet (h : rowGet.Matches w) : wordFault n w = accessFault n (offsetField w) (bitsizeField w) :=
  wordFault_of_decode_ok (rowGet_matches_iff_decode.1 h)

theorem wordFault_of_rowSet (h : rowSet.Matches w) : wordFault n w = accessFault n (offsetField w) (bitsizeField w) :=
  wordFault_of_decode_ok (rowSet_matches_iff_decode.1 h)

theorem wordFault_of_rowEncode (h : rowEncode.Matches w) : wordFault n w = .none :=
  wordFault_of_decode_ok (rowEncode_matches_iff_decode.1 h)

theorem wordFault_of_rowDecode (h : rowDecode.Matches w) : wordFault n w = .none :=
  wordFault_of_decode_ok (rowDecode_matches_iff_decode.1 h)

/-- The second check fails exactly on the `GET` and `SET` words with illegal operands (R134). -/
theorem wordFault_eq_preconditionError_iff : wordFault n w = .preconditionError ↔
    (rowGet.Matches w ∨ rowSet.Matches w) ∧ ¬ Legal n (w.extractLsb' 16 11).toNat (w.extractLsb' 27 5).toNat := by
  rw [← cmdField_eq_extract, ← cmdField_eq_extract]
  change _ ↔ _ ∧ ¬ Legal n (offsetField w) (bitsizeField w)
  constructor
  · intro hf
    have hrow : rowGet.Matches w ∨ rowSet.Matches w ∨ rowEncode.Matches w ∨ rowDecode.Matches w := by
      by_contra hno
      simp only [not_or] at hno
      cases (wordFault_eq_illegalCommand_iff.2 hno).symm.trans hf
    rcases hrow with h | h | h | h
    · exact ⟨.inl h, accessFault_eq_preconditionError_iff.1 (wordFault_of_rowGet h ▸ hf)⟩
    · exact ⟨.inr h, accessFault_eq_preconditionError_iff.1 (wordFault_of_rowSet h ▸ hf)⟩
    · cases (wordFault_of_rowEncode h).symm.trans hf
    · cases (wordFault_of_rowDecode h).symm.trans hf
  · rintro ⟨h | h, hl⟩
    · rw [wordFault_of_rowGet h, accessFault_eq_preconditionError_iff.2 hl]
    · rw [wordFault_of_rowSet h, accessFault_eq_preconditionError_iff.2 hl]

end WordFault

/-! ## What DECODE answers -/

section Cause

variable {p : PState} {st : Status}

theorem causeOf_eq_none_iff : causeOf p st = .none ↔ st ≠ .error := by
  cases st <;> cases p <;> decide

theorem causeOf_eq_framing_iff : causeOf p st = .framing ↔ st = .error ∧ p = .idle := by
  cases st <;> cases p <;> decide

theorem causeOf_eq_checksum_iff : causeOf p st = .checksum ↔ st = .error ∧ p = .accumulating := by
  cases st <;> cases p <;> decide

end Cause

section Answers

variable {s t : State} {w : CmdWord} {i : Instr} {b : Byte}

/-- The response of each row of R94: no fault, the cause that the parser's state before it gives (R133), and after an
`Error` the parser is in `Idle` and both registers are kept (R138). -/
theorem DecodeRow.answer (hr : DecodeRow b s t) : ∃ r, t.responses = s.responses ++ [r] ∧ r.fault = .none ∧
    r.errCause = causeOf s.pstate r.status ∧
    (r.status = .error → t.pstate = .idle ∧ t.rx = s.rx ∧ t.tx = s.tx) := by
  cases hr with
  | start | inside | complete => exact ⟨_, rfl, rfl, rfl, nofun⟩
  | noise hp hb => exact ⟨_, rfl, rfl, by rw [hp]; rfl, fun _ => ⟨hp, rfl, rfl⟩⟩
  | badSum hp hc hsum => exact ⟨_, rfl, rfl, by rw [hp]; rfl, fun _ => ⟨rfl, rfl, rfl⟩⟩

/-! ## What a word is answered with -/

/-- TAKING A FAULT: an operation whose operands fail their check is answered and nothing is written (R134, R138). -/
theorem exec_of_operandFault (h : operandFault s.N i ≠ .none) : exec i s = .next (s.raise (operandFault s.N i)) := by
  cases i with
  | get m o b =>
    have hl : ¬ Legal s.N o b := h ∘ accessFault_eq_none_iff.2
    rw [exec_get_of_not_legal m hl, operandFault, accessFault_eq_preconditionError_iff.2 hl, State.raise_eq_respond]
  | set m o b v =>
    have hl : ¬ Legal s.N o b := h ∘ accessFault_eq_none_iff.2
    rw [exec_set_of_not_legal m v hl, operandFault, accessFault_eq_preconditionError_iff.2 hl, State.raise_eq_respond]
  | encode | decode => exact absurd rfl h

/-- An operation whose operands pass their check is answered without a fault, and with a cause exactly when it answers
`Error` (R55, R133). -/
theorem exec_answer_of_no_operandFault (hi : s.IsInstance) (h : operandFault s.N i = .none)
    (hx : exec i s = .next t) :
    ∃ r, t.responses = s.responses ++ [r] ∧ r.fault = .none ∧ (r.errCause = .none ↔ r.status ≠ .error) := by
  cases i with
  | get m o b =>
    have hl : Legal s.N o b := accessFault_eq_none_iff.1 h
    cases (exec_get_of_legal hi m hl).symm.trans hx
    exact ⟨_, rfl, rfl, by simp [Response.value, Response.done]⟩
  | set m o b v =>
    have hl : Legal s.N o b := accessFault_eq_none_iff.1 h
    cases (exec_set_of_legal m v hl).symm.trans hx
    exact ⟨.done, by simp, rfl, by simp [Response.done]⟩
  | encode m =>
    cases hx
    exact ⟨_, rfl, rfl, by simp [Response.emitted, Response.done]⟩
  | decode b =>
    obtain ⟨r, hr, hf, hcause, -⟩ := (DecodeRow.of_exec hi hx).answer
    exact ⟨r, hr, hf, by rw [hcause, causeOf_eq_none_iff]⟩

/-- A word that fails a check is answered with its fault and nothing is written (R134, R135, R138). -/
theorem issue_of_wordFault (h : wordFault s.N w ≠ .none) : issue w s = .next (s.raise (wordFault s.N w)) := by
  match hd : decode w with
  | .ok i =>
    rw [wordFault_of_decode_ok hd] at h ⊢
    rw [issue_of_decode_ok hd, exec_of_operandFault h]
  | .error r => rw [issue_of_decode_error hd, wordFault_of_decode_error hd]

/-- A word is answered with the fault of the first check it fails, and with a cause only where it fails none and the
answer is `Error` (R137). -/
theorem issue_answer (hi : s.IsInstance) (hx : issue w s = .next t) :
    ∃ r, t.responses = s.responses ++ [r] ∧ r.fault = wordFault s.N w ∧
      (r.errCause = .none ↔ r.fault ≠ .none ∨ r.status ≠ .error) := by
  by_cases h : wordFault s.N w = .none
  · match hd : decode w with
    | .ok i =>
      rw [wordFault_of_decode_ok hd] at h ⊢
      rw [issue_of_decode_ok hd] at hx
      obtain ⟨r, hr, hf, hcause⟩ := exec_answer_of_no_operandFault hi h hx
      exact ⟨r, hr, hf.trans h.symm, by simp [hf, hcause]⟩
    | .error _ => simp [wordFault_of_decode_error hd] at h
  · cases (issue_of_wordFault h).symm.trans hx
    exact ⟨_, rfl, rfl, by simp [Response.faulted, Response.done, h]⟩

end Answers

/-! ## The obligations -/

/-- Settles O7: a word of no row fails the first check. -/
theorem wordOfNoRowRaisesIllegalCommand : Obligations.WordOfNoRowRaisesIllegalCommand := by
  intro s w rest hi hp hget hset henc hdec
  have hf : wordFault s.N w = .illegalCommand := wordFault_eq_illegalCommand_iff.2 ⟨hget, hset, henc, hdec⟩
  rw [step_of_pending_command hi hp, issue_of_wordFault (by simp [hf]), State.withPending_N, hf]
  rfl

/-- Settles O8: the fault is that of the first check the word fails. -/
theorem oneResponseWithChecksInOrder : Obligations.OneResponseWithChecksInOrder := by
  intro s w rest h hp
  obtain ⟨t, -, ht, -⟩ := issue_answers (s := { s with pending := rest }) h w
  obtain ⟨r, hr, hf, hcause⟩ := issue_answer (s := { s with pending := rest }) h.isInstance ht
  rw [State.withPending_N] at hf
  refine ⟨t, r, (step_of_pending_command h.isInstance hp).trans ht, hr, ?_, ?_, fun hdec => ?_,
    fun hne => hcause.2 (.inl hne)⟩
  · rw [hf, wordFault_eq_illegalCommand_iff]
  · rw [hf, wordFault_eq_preconditionError_iff]
  · have hnone : r.fault = .none := hf.trans (wordFault_of_rowDecode hdec)
    refine ⟨hnone, ?_⟩
    cases hs : r.status <;> simp [hcause, hnone, hs]

/-- Settles O21: a `GET` or `SET` word with illegal operands passes the first check and fails the second. -/
theorem illegalOperandsRaisePreconditionError : Obligations.IllegalOperandsRaisePreconditionError := by
  intro s w rest hi hp hrow hl
  have hf : wordFault s.N w = .preconditionError := wordFault_eq_preconditionError_iff.2 ⟨hrow, hl⟩
  rw [step_of_pending_command hi hp, issue_of_wordFault (by simp [hf]), State.withPending_N, hf]
  rfl

/-- Settles O27: where the response has a fault, the word failed a check. -/
theorem faultsChangeNoState : Obligations.FaultsChangeNoState := by
  intro s t w rest h hp hstep
  have hx : issue w { s with pending := rest } = .next t := step_of_pending_command h.isInstance hp ▸ hstep
  obtain ⟨r, hr, hf, -⟩ := issue_answer (s := { s with pending := rest }) h.isInstance hx
  refine ⟨r, hr, fun hne => ?_⟩
  cases (issue_of_wordFault (hf ▸ hne)).symm.trans hx
  cases List.append_cancel_left hr
  exact ⟨rfl, rfl, rfl, rfl⟩

/-- Settles O37: the cause is that of `causeOf` in every row. -/
theorem errorCauseFollowsTheParserState : Obligations.ErrorCauseFollowsTheParserState := by
  intro s t b hi hx
  obtain ⟨r, hr, -, hcause, -⟩ := (DecodeRow.of_exec hi hx).answer
  exact ⟨r, hr, by rw [hcause, causeOf_eq_framing_iff], by rw [hcause, causeOf_eq_checksum_iff], hcause⟩

/-- Settles O38: an `Error` leaves the parser in `Idle` with the invariants, from where the next byte is T1 or T2. -/
theorem errorReturnsToIdle : Obligations.ErrorReturnsToIdle := by
  intro s t b r h hx hr hstatus
  have hinv := exec_keeps_inv h hx
  obtain ⟨r', hr', -, -, herror⟩ := (DecodeRow.of_exec h.isInstance hx).answer
  cases List.append_cancel_left (hr.symm.trans hr')
  obtain ⟨hp, hrx, htx⟩ := herror hstatus
  have ⟨_, hidle, _⟩ := hinv
  exact ⟨hp, hidle hp, hrx, htx, ⟨_, exec_decode_marker_of_idle hp, rfl, rfl⟩,
    fun b' hb' => exec_decode_noise hinv hp hb'⟩

end Sys2Proof.Machine
end

section
/-! Reset abandons a frame in flight, and a message register stays as it is for the length of a frame
(`70_reset_and_hazards.md` R150, R151, R157). -/

namespace Sys2Proof.Machine

/-- The reset event leaves the parser in `Idle` with cursor 0 (R150), where the invariants about a frame say nothing. -/
theorem State.applyReset_inv {s : State} (hi : s.IsInstance) : s.applyReset.Inv :=
  .of_idle hi.applyReset rfl rfl

/-- From `Idle`, bytes too few to make a whole frame are noise or stand in a frame in flight; neither writes a message
register (R97, R98). -/
theorem execAll_decode_keeps_registers {s : State} {l : List Byte} (h : s.Inv) (hp : s.pstate = .idle)
    (hl : l.length ≤ s.N + 1) : ∃ t, execAll (l.map .decode) s = .next t ∧ t.rx = s.rx ∧ t.tx = s.tx := by
  induction l generalizing s with
  | nil => exact ⟨s, rfl, rfl, rfl⟩
  | cons b l ih =>
    rw [List.length_cons, Nat.add_le_add_iff_right] at hl
    by_cases hb : b = Config.marker
    · subst hb
      exact ⟨_, execAll_decode_marker_cons h.isInstance hp hl, rfl, rfl⟩
    · have hx := exec_decode_noise h hp hb
      rw [List.map_cons, execAll_cons_of_exec hx]
      exact ih (exec_keeps_inv h hx) hp (Nat.le_succ_of_le hl)

/-! ## The obligations -/

/-- Settles O17: the state after the reset event has the invariants and is in `Idle`, where T1 and T2 apply. -/
theorem resetAbandonsTheFrame : Obligations.ResetAbandonsTheFrame := by
  intro s rest hi hp
  have hinv : ({ s with pending := rest } : State).applyReset.Inv :=
    State.applyReset_inv ((State.withPending_isInstance s rest).2 hi)
  refine ⟨_, step_of_pending_reset hi hp, rfl, rfl, State.applyReset_N _, State.applyReset_tx_length _,
    State.applyReset_buf_length _, rfl, rfl, fun b hb => ?_, ?_⟩
  · exact exec_decode_noise hinv rfl hb
  · exact ⟨_, exec_decode_marker_of_idle rfl, rfl, rfl, rfl⟩

/-- Settles O51: too few bytes are fed to reach T4, the only transition that writes `msg[0]`. -/
theorem rxIsStableForAFrame : Obligations.RxIsStableForAFrame :=
  fun _ _ => execAll_decode_keeps_registers

end Sys2Proof.Machine
end
